-- ==== Sys2Proof/Word.lean ====
section
/-! DEFINITION. The word of the machine (00_scope.md R8) and the byte of a program's text (30_encoding.md R93). -/

namespace Sys2Proof

/-- A word, an integer `w` with `0 <= w < 2^32` (R8). Every scratch cell and every memory cell holds one. -/
abbrev Word := BitVec 32

/-- One character of the text of a program literal (R93). Memory is not made of bytes (R51). -/
abbrev Byte := BitVec 8

/-- `v mod 2^32` of a natural number, as a word (R8). -/
def Word.ofNatMod (v : Nat) : Word := BitVec.ofNat 32 v

/-- `v mod 2^32` of an integer of either sign, as a word: the unique representative in `0 .. 2^32-1` (R8). -/
def Word.ofIntMod (v : Int) : Word := BitVec.ofInt 32 v

end Sys2Proof
end

