-- ==== Sys2Proof/Literal.lean ====
section
/-! DEFINITION. The Python literals a program is made of (30_encoding.md R80 to R82, R93), the six engines (R81) and the
names of the well-formedness checks (R90). These are the types below the syntax of an operation. -/

namespace Sys2Proof

/-- The characters of a Python string literal or of a program's text. -/
abbrev Text := List Byte

/-- The text of an ASCII name. -/
def ascii (s : String) : Text := s.toList.map (fun c => BitVec.ofNat 8 c.toNat)

mutual
/-- A Python value, as far as the format of a program uses them (R80, R82, R90): integers, strings, tuples, lists and
dictionaries. A `key` of a Debug slot may be any of them (10_state.md R32). -/
inductive Py where
  | int (n : Int)
  | str (t : Text)
  | tup (items : Pys)
  | list (items : Pys)
  | dict (entries : Kvs)
deriving DecidableEq, Repr
/-- The items of a tuple or of a list, in order. -/
inductive Pys where
  | nil
  | cons (x : Py) (xs : Pys)
deriving DecidableEq, Repr
/-- The entries of a dictionary, in the order they are written. -/
inductive Kvs where
  | nil
  | cons (k v : Py) (rest : Kvs)
deriving DecidableEq, Repr
end

def Pys.toList : Pys → List Py
  | .nil => []
  | .cons x xs => x :: xs.toList

def Pys.ofList : List Py → Pys
  | [] => .nil
  | x :: xs => .cons x (Pys.ofList xs)

def Kvs.toList : Kvs → List (Py × Py)
  | .nil => []
  | .cons k v rest => (k, v) :: rest.toList

def Kvs.ofList : List (Py × Py) → Kvs
  | [] => .nil
  | (k, v) :: rest => .cons k v (Kvs.ofList rest)

/-- A key of `VALUE_TRACE`: "an opaque value of a type with decidable equality" (R32). -/
abbrev Key := Py

/-- The six engines (R81), in the engine processing order of 20_memory.md R56 with the Debug engine last. -/
inductive Engine where
  | alu | valu | load | store | flow | debug
deriving DecidableEq, Repr

/-- The key of the bundle's dictionary that names an engine (R81), character by character; the tests compare each with the
name in letters. -/
def Engine.key : Engine → Text
  | .alu => [97, 108, 117]  -- alu
  | .valu => [118, 97, 108, 117]  -- valu
  | .load => [108, 111, 97, 100]  -- load
  | .store => [115, 116, 111, 114, 101]  -- store
  | .flow => [102, 108, 111, 119]  -- flow
  | .debug => [100, 101, 98, 117, 103]  -- debug

/-- The engine processing order "alu, valu, load, store, flow", then the Debug slots (R56). -/
def Engine.order : List Engine := [.alu, .valu, .load, .store, .flow, .debug]

/-- The well-formedness checks of R90 under the spec's own names, and before them two that a Python `dict` meets by
being one (R80, R81). -/
inductive Check where
  | bundleIsDict   -- an element of the program is a dictionary (R80)
  | keysUnique     -- a `dict` has each key once (R81)
  | keysKnown
  | slotsAreLists
  | slotLimit
  | opKnown
  | arity
  | operandType
  | scratchRange
deriving DecidableEq, Repr

end Sys2Proof
end

