-- ==== Sys2Proof/Config.lean ====
section
/-! DEFINITION. What is fixed while the machine runs: the constants of 00_scope.md R6 and the launch parameters of R7.
The parameters stand in the state (Sys2Proof/Machine/State.lean), so that a statement about every state holds for
every value of them. -/

namespace Sys2Proof

/-- `VLEN` (R6). -/
abbrev vlen : Nat := 8

/-- `SCRATCH_SIZE` (R6). -/
abbrev scratchSize : Nat := 1536

/-- `N_CORES` (R6): the one core of this version. -/
abbrev nCores : Nat := 1

/-- `SLOT_LIMIT` (R6, 30_encoding.md R83). -/
def slotLimit : Engine → Nat
  | .alu => 12
  | .valu => 6
  | .load => 2
  | .store => 2
  | .flow => 1
  | .debug => 64

/-- `REL_BASE`, 0 or 1: what a taken `cond_jump_rel` counts its offset from (R7, 44_flow.md R181). -/
inductive RelBase where
  | zero   -- from the bundle that holds the jump
  | one    -- from the bundle that follows it; the default of the spec
deriving DecidableEq, Repr

def RelBase.toInt : RelBase → Int
  | .zero => 0
  | .one => 1

/-- `END_OF_PROGRAM` (R7): what a fetch at `pc >= len(PROGRAM)` does. -/
inductive EndOfProgram where
  | fault   -- the default of the spec
  | stop
deriving DecidableEq, Repr

/-- The launch parameters that are constant afterwards (10_state.md R38, last row). `PROGRAM` is held as the literals the
host supplies (R31, R80), which a fetch decodes; `VALUE_TRACE` as its key and value pairs (R32). -/
structure Params where
  program      : List Py
  memSize      : Nat
  valueTrace   : List (Key × Int)
  enableDebug  : Bool
  relBase      : RelBase
  coreId       : Word
  endOfProgram : EndOfProgram
deriving DecidableEq, Repr

/-- The parameters State.reset is launched with: no program and no trace table, the defaults of R7 where it gives one
(`REL_BASE`, `CORE_ID`, `END_OF_PROGRAM`), and for the two it leaves OPEN the values of log entries 2 and 3.
DESIGN CHOICE, unsafe: `MEM_SIZE` = 2^32 and `ENABLE_DEBUG` = False hold of State.reset only. -/
def Params.bare : Params where
  program := []
  memSize := 4294967296
  valueTrace := []
  enableDebug := false
  relBase := .one
  coreId := 0
  endOfProgram := .fault

/-- The entry of `VALUE_TRACE` under a key, or nothing (R32). -/
def Params.traceAt (p : Params) (k : Key) : Option Int := p.valueTrace.lookup k

end Sys2Proof
end

