-- ==== Sys2Proof/Syntax.lean ====
section
/-! DEFINITION. The 47 operations (30_encoding.md R88) and the bundle of slots (R80, R81). An operand is an integer (R82)
that WellFormed checks, except the keys of the Debug operations. -/

namespace Sys2Proof

/-- One slot: an operation with its operands, in the order of its tuple (R84). The engine is part of the constructor,
since an operation is selected by the pair of engine and name (R88). -/
inductive Instr where
  -- alu, format A3 (40_alu.md R111 to R123)
  | aluAdd (dest a1 a2 : Int)
  | aluSub (dest a1 a2 : Int)
  | aluMul (dest a1 a2 : Int)
  | aluDiv (dest a1 a2 : Int)
  | aluCdiv (dest a1 a2 : Int)
  | aluXor (dest a1 a2 : Int)
  | aluAnd (dest a1 a2 : Int)
  | aluOr (dest a1 a2 : Int)
  | aluShl (dest a1 a2 : Int)
  | aluShr (dest a1 a2 : Int)
  | aluMod (dest a1 a2 : Int)
  | aluLt (dest a1 a2 : Int)
  | aluEq (dest a1 a2 : Int)
  -- valu, format V3 (41_valu.md R131 to R143)
  | valuAdd (dest a1 a2 : Int)
  | valuSub (dest a1 a2 : Int)
  | valuMul (dest a1 a2 : Int)
  | valuDiv (dest a1 a2 : Int)
  | valuCdiv (dest a1 a2 : Int)
  | valuXor (dest a1 a2 : Int)
  | valuAnd (dest a1 a2 : Int)
  | valuOr (dest a1 a2 : Int)
  | valuShl (dest a1 a2 : Int)
  | valuShr (dest a1 a2 : Int)
  | valuMod (dest a1 a2 : Int)
  | valuLt (dest a1 a2 : Int)
  | valuEq (dest a1 a2 : Int)
  -- valu, formats VB and VM (R144, R145)
  | vbroadcast (dest src : Int)
  | multiplyAdd (dest a b c : Int)
  -- load, formats L2, LO, VL, LC (42_load.md R156 to R159)
  | load (dest addr : Int)
  | loadOffset (dest addr offset : Int)
  | vload (dest addr : Int)
  | const (dest val : Int)
  -- store, formats S2, VS (43_store.md R166, R167)
  | store (addr src : Int)
  | vstore (addr src : Int)
  -- flow, formats F4, FV, FI, F0, FT, FJ, FR, J1, JI, FC (44_flow.md R174 to R184)
  | select (dest cond a b : Int)
  | vselect (dest cond a b : Int)
  | addImm (dest a imm : Int)
  | halt
  | pause
  | traceWrite (val : Int)
  | condJump (cond addr : Int)
  | condJumpRel (cond offset : Int)
  | jump (addr : Int)
  | jumpIndirect (addr : Int)
  | coreid (dest : Int)
  -- debug, formats DC, DV (45_debug.md R196, R197)
  | compare (loc : Int) (key : Key)
  | vcompare (loc : Int) (keys : List Key)
deriving DecidableEq, Repr

/-- The engine key an operation stands under (R88). -/
def Instr.engine : Instr → Engine
  | .aluAdd _ _ _ | .aluSub _ _ _ | .aluMul _ _ _ | .aluDiv _ _ _ | .aluCdiv _ _ _ | .aluXor _ _ _ | .aluAnd _ _ _
  | .aluOr _ _ _ | .aluShl _ _ _ | .aluShr _ _ _ | .aluMod _ _ _ | .aluLt _ _ _ | .aluEq _ _ _ => .alu
  | .valuAdd _ _ _ | .valuSub _ _ _ | .valuMul _ _ _ | .valuDiv _ _ _ | .valuCdiv _ _ _ | .valuXor _ _ _
  | .valuAnd _ _ _ | .valuOr _ _ _ | .valuShl _ _ _ | .valuShr _ _ _ | .valuMod _ _ _ | .valuLt _ _ _
  | .valuEq _ _ _ | .vbroadcast _ _ | .multiplyAdd _ _ _ _ => .valu
  | .load _ _ | .loadOffset _ _ _ | .vload _ _ | .const _ _ => .load
  | .store _ _ | .vstore _ _ => .store
  | .select _ _ _ _ | .vselect _ _ _ _ | .addImm _ _ _ | .halt | .pause | .traceWrite _ | .condJump _ _
  | .condJumpRel _ _ | .jump _ | .jumpIndirect _ | .coreid _ => .flow
  | .compare _ _ | .vcompare _ _ => .debug

/-- A bundle (R80): for each engine the list of slots under its key, or nothing where the bundle has no such key. The
cycle counter tells an absent key from an empty list (60_exceptions.md R214). -/
structure Bundle where
  alu   : Option (List Instr)
  valu  : Option (List Instr)
  load  : Option (List Instr)
  store : Option (List Instr)
  flow  : Option (List Instr)
  debug : Option (List Instr)
deriving DecidableEq, Repr

/-- The bundle `{}` (R96). -/
def Bundle.empty : Bundle := ⟨none, none, none, none, none, none⟩

/-- What stands under an engine's key, if the bundle has the key. -/
def Bundle.entry (b : Bundle) : Engine → Option (List Instr)
  | .alu => b.alu
  | .valu => b.valu
  | .load => b.load
  | .store => b.store
  | .flow => b.flow
  | .debug => b.debug

/-- The slots an engine is given: none where the key is missing, "the engine does nothing this cycle" (R81). -/
def Bundle.slots (b : Bundle) (e : Engine) : List Instr := (b.entry e).getD []

/-- Whether the bundle "contains at least one non-debug engine": a test on the keys (60_exceptions.md R214). -/
def Bundle.counts (b : Bundle) : Bool :=
  b.alu.isSome || b.valu.isSome || b.load.isSome || b.store.isSome || b.flow.isSome

/-- The bundle that holds one slot and nothing else. -/
def Bundle.single (i : Instr) : Bundle :=
  match i.engine with
  | .alu => { Bundle.empty with alu := some [i] }
  | .valu => { Bundle.empty with valu := some [i] }
  | .load => { Bundle.empty with load := some [i] }
  | .store => { Bundle.empty with store := some [i] }
  | .flow => { Bundle.empty with flow := some [i] }
  | .debug => { Bundle.empty with debug := some [i] }

end Sys2Proof
end

