-- ==== Sys2Proof/WellFormed.lean ====
section
/-! DEFINITION. Well-formedness of a slot and of a bundle (30_encoding.md R85, R90). The checks on the shape of a literal
(`keys-known`, `slots-are-lists`, `op-known`, `arity`, and the types of the fields) are the decoder's; the checks here are
those a decoded term can still break. -/

namespace Sys2Proof

/-- The constraint on an S-read or S-write field (R85). -/
abbrev scalarAddr (a : Int) : Bool := decide (0 ≤ a ∧ a ≤ 1535)

/-- The constraint on a V-read or V-write field: the base of 8 cells (R85). -/
abbrev vectorAddr (a : Int) : Bool := decide (0 ≤ a ∧ a ≤ 1528)

/-- The scratch addresses of single cells that a slot names (R84); for `load_offset` the two sums (R85). -/
def Instr.scalarFields : Instr → List Int
  | .aluAdd d a b | .aluSub d a b | .aluMul d a b | .aluDiv d a b | .aluCdiv d a b | .aluXor d a b | .aluAnd d a b
  | .aluOr d a b | .aluShl d a b | .aluShr d a b | .aluMod d a b | .aluLt d a b | .aluEq d a b => [d, a, b]
  | .valuAdd _ _ _ | .valuSub _ _ _ | .valuMul _ _ _ | .valuDiv _ _ _ | .valuCdiv _ _ _ | .valuXor _ _ _
  | .valuAnd _ _ _ | .valuOr _ _ _ | .valuShl _ _ _ | .valuShr _ _ _ | .valuMod _ _ _ | .valuLt _ _ _
  | .valuEq _ _ _ | .multiplyAdd _ _ _ _ => []
  | .vbroadcast _ src => [src]
  | .load dest addr => [dest, addr]
  | .loadOffset dest addr offset => [dest + offset, addr + offset]
  | .vload _ addr => [addr]
  | .const dest _ => [dest]
  | .store addr src => [addr, src]
  | .vstore addr _ => [addr]
  | .select d c a b => [d, c, a, b]
  | .vselect _ _ _ _ => []
  | .addImm dest a _ => [dest, a]
  | .halt | .pause => []
  | .traceWrite val => [val]
  | .condJump cond _ => [cond]
  | .condJumpRel cond _ => [cond]
  | .jump _ => []
  | .jumpIndirect addr => [addr]
  | .coreid dest => [dest]
  | .compare loc _ => [loc]
  | .vcompare _ _ => []

/-- The vector bases a slot names (R84). -/
def Instr.vectorFields : Instr → List Int
  | .aluAdd _ _ _ | .aluSub _ _ _ | .aluMul _ _ _ | .aluDiv _ _ _ | .aluCdiv _ _ _ | .aluXor _ _ _ | .aluAnd _ _ _
  | .aluOr _ _ _ | .aluShl _ _ _ | .aluShr _ _ _ | .aluMod _ _ _ | .aluLt _ _ _ | .aluEq _ _ _ => []
  | .valuAdd d a b | .valuSub d a b | .valuMul d a b | .valuDiv d a b | .valuCdiv d a b | .valuXor d a b
  | .valuAnd d a b | .valuOr d a b | .valuShl d a b | .valuShr d a b | .valuMod d a b | .valuLt d a b
  | .valuEq d a b => [d, a, b]
  | .vbroadcast dest _ => [dest]
  | .multiplyAdd d a b c => [d, a, b, c]
  | .load _ _ | .loadOffset _ _ _ => []
  | .vload dest _ => [dest]
  | .const _ _ => []
  | .store _ _ => []
  | .vstore _ src => [src]
  | .select _ _ _ _ => []
  | .vselect d c a b => [d, c, a, b]
  | .addImm _ _ _ | .halt | .pause | .traceWrite _ | .condJump _ _ | .condJumpRel _ _ | .jump _ | .jumpIndirect _
  | .coreid _ | .compare _ _ => []
  | .vcompare loc _ => [loc]

/-- Check `scratch-range` of one slot (R90, 7). -/
def Instr.inScratchRange (i : Instr) : Bool :=
  i.scalarFields.all scalarAddr && i.vectorFields.all vectorAddr

/-- Check `operand-type` of one slot, as far as a decoded slot can break it: `keys` of `vcompare` is a list of exactly
8 keys (R90, 6). -/
def Instr.keysFit : Instr → Bool
  | .vcompare _ keys => keys.length == vlen
  | _ => true

/-- The check of R90 a slot fails under an engine's key, if it fails one. -/
def Instr.failedCheck (e : Engine) (i : Instr) : Option Check :=
  if i.engine ≠ e then some .opKnown
  else if !i.keysFit then some .operandType
  else if !i.inScratchRange then some .scratchRange
  else none

/-- A slot that is well-formed under its own engine's key. -/
def Instr.wellFormed (i : Instr) : Bool := i.keysFit && i.inScratchRange

/-- The check of R90 the list under one engine's key fails, if it fails one. -/
def Bundle.failedCheckAt (b : Bundle) (e : Engine) : Option Check :=
  if slotLimit e < (b.slots e).length then some .slotLimit
  else (b.slots e).findSome? (Instr.failedCheck e)

/-- The check of R90 a bundle fails, if it fails one, the engines in their processing order. DESIGN CHOICE (log entry 12):
which of several failed checks is named. -/
def Bundle.failedCheck (b : Bundle) : Option Check := Engine.order.findSome? b.failedCheckAt

/-- A well-formed bundle (R90, 3 to 7). -/
def Bundle.wellFormed (b : Bundle) : Bool := b.failedCheck.isNone

end Sys2Proof
end

