-- ==== Sys2Proof/Decode.lean ====
section
/-! DEFINITION. The decoder and the encoder. The source gives an instruction no bits (91_not_in_source.md N1): the encoding
of a slot is its tuple and the encoding of a bundle its dictionary (30_encoding.md R80 to R84), and the textual form of
both is the Python literal (R93). So there are two layers: characters to a literal (`lex`, `parse`), and a literal to a
bundle (`decodeBundle`), which rejects by the name of the check of R90 that fails. Each has its inverse below it. -/

namespace Sys2Proof

/-! ## From characters to tokens (R93) -/

/-- A token of the literal format of R93. -/
inductive Tok where
  | lbrace | rbrace | lbrack | rbrack | lparen | rparen | comma | colon
  | int (n : Int)
  | str (t : Text)
deriving DecidableEq, Repr

/-- Where the lexer stands: between tokens, after a minus sign, in a decimal integer, or in a string (its characters so
far, the last one first). -/
inductive LexMode where
  | start
  | minus
  | num (negative : Bool) (value : Nat)
  | str (acc : Text)
deriving DecidableEq, Repr

/-- The value of a decimal digit. -/
def digitValue (c : Byte) : Option Nat :=
  if 48 ≤ c.toNat ∧ c.toNat ≤ 57 then some (c.toNat - 48) else none

def signed (negative : Bool) (value : Nat) : Int := if negative then -(value : Int) else value

/-- A character met between two tokens: the tokens it completes and what follows it. Blank, tab and line ends separate
tokens; there are no comments in the format (R93). -/
def lexStart (c : Byte) : Option (List Tok × LexMode) :=
  match c.toNat with
  | 9 | 10 | 13 | 32 => some ([], .start)
  | 123 => some ([.lbrace], .start)
  | 125 => some ([.rbrace], .start)
  | 91 => some ([.lbrack], .start)
  | 93 => some ([.rbrack], .start)
  | 40 => some ([.lparen], .start)
  | 41 => some ([.rparen], .start)
  | 44 => some ([.comma], .start)
  | 58 => some ([.colon], .start)
  | 45 => some ([], .minus)
  | 34 => some ([], .str [])
  | _ => (digitValue c).map (fun d => ([], .num false d))

/-- The tokens of a text, or nothing where it is no text of the format. Operands are decimal integers without leading
zeros; a string holds no backslash and no line end (log entry 9). -/
def lex : LexMode → Text → Option (List Tok)
  | .start, [] => some []
  | .minus, [] => none
  | .num neg v, [] => some [.int (signed neg v)]
  | .str _, [] => none
  | .start, c :: cs =>
    match lexStart c with
    | some (ts, m) => (lex m cs).map (fun rest => ts ++ rest)
    | none => none
  | .minus, c :: cs =>
    match digitValue c with
    | some d => lex (.num true d) cs
    | none => none
  | .num neg v, c :: cs =>
    match digitValue c with
    | some d => if v = 0 then none else lex (.num neg (10 * v + d)) cs
    | none =>
      match lexStart c with
      | some (ts, m) => (lex m cs).map (fun rest => .int (signed neg v) :: (ts ++ rest))
      | none => none
  | .str acc, c :: cs =>
    if c.toNat = 34 then (lex .start cs).map (fun rest => .str acc.reverse :: rest)
    else if c.toNat = 92 ∨ c.toNat = 10 ∨ c.toNat = 13 then none
    else lex (.str (c :: acc)) cs

/-! ## From tokens to a literal (R93) -/

/-- An open bracket and what has been read inside it, the last item first. -/
inductive Frame where
  | tup (done : List Py)
  | list (done : List Py)
  | dict (done : List (Py × Py)) (key : Option Py)
deriving DecidableEq, Repr

/-- The parser between two tokens: the open brackets, the innermost first, and the value just completed, if any. -/
structure Parser where
  stack : List Frame
  value : Option Py
deriving DecidableEq, Repr

/-- One token, where a value (or a closing bracket) may come. -/
def Parser.need (stack : List Frame) : Tok → Option Parser
  | .int n => some ⟨stack, some (.int n)⟩
  | .str t => some ⟨stack, some (.str t)⟩
  | .lparen => some ⟨.tup [] :: stack, none⟩
  | .lbrack => some ⟨.list [] :: stack, none⟩
  | .lbrace => some ⟨.dict [] none :: stack, none⟩
  | .rparen =>
    match stack with
    | .tup done :: st => some ⟨st, some (.tup (Pys.ofList done.reverse))⟩
    | _ => none
  | .rbrack =>
    match stack with
    | .list done :: st => some ⟨st, some (.list (Pys.ofList done.reverse))⟩
    | _ => none
  | .rbrace =>
    match stack with
    | .dict done none :: st => some ⟨st, some (.dict (Kvs.ofList done.reverse))⟩
    | _ => none
  | .comma => none
  | .colon => none

/-- One token after the complete value `v`. A parenthesised value without a comma is that value, not a tuple: a
one-element tuple is written with its trailing comma (R93). -/
def Parser.got (stack : List Frame) (v : Py) : Tok → Option Parser
  | .comma =>
    match stack with
    | .tup done :: st => some ⟨.tup (v :: done) :: st, none⟩
    | .list done :: st => some ⟨.list (v :: done) :: st, none⟩
    | .dict done (some k) :: st => some ⟨.dict ((k, v) :: done) none :: st, none⟩
    | _ => none
  | .colon =>
    match stack with
    | .dict done none :: st => some ⟨.dict done (some v) :: st, none⟩
    | _ => none
  | .rparen =>
    match stack with
    | .tup [] :: st => some ⟨st, some v⟩
    | .tup (d :: ds) :: st => some ⟨st, some (.tup (Pys.ofList (v :: d :: ds).reverse))⟩
    | _ => none
  | .rbrack =>
    match stack with
    | .list done :: st => some ⟨st, some (.list (Pys.ofList (v :: done).reverse))⟩
    | _ => none
  | .rbrace =>
    match stack with
    | .dict done (some k) :: st => some ⟨st, some (.dict (Kvs.ofList ((k, v) :: done).reverse))⟩
    | _ => none
  | .int _ | .str _ | .lparen | .lbrack | .lbrace => none

/-- One token. -/
def Parser.feed (p : Parser) (t : Tok) : Option Parser :=
  match p.value with
  | none => Parser.need p.stack t
  | some v => Parser.got p.stack v t

/-- All tokens to the end of the text, which must complete exactly one value. -/
def Parser.run : Parser → List Tok → Option Py
  | p, [] => match p.stack with
    | [] => p.value
    | _ :: _ => none
  | p, t :: ts => match p.feed t with
    | some q => Parser.run q ts
    | none => none

/-- The literal written by a list of tokens. -/
def parse (ts : List Tok) : Option Py := Parser.run ⟨[], none⟩ ts

/-- The literal a text writes (R93). -/
def parseText (t : Text) : Option Py :=
  match lex .start t with
  | some ts => parse ts
  | none => none

/-- The elements of the program a text writes: "a program is a Python list of `dict`s" (R93). -/
def parseProgram (t : Text) : Option (List Py) :=
  match parseText t with
  | some (.list items) => some items.toList
  | _ => none

/-! ## From a literal to a slot (R82, R84, R88) -/

/-- Format F0: no operand. -/
def fields0 (i : Instr) : List Py → Except Check Instr
  | [] => .ok i
  | _ => .error .arity

/-- Formats with one integer operand (FT, J1, JI, FC). -/
def fields1 (f : Int → Instr) : List Py → Except Check Instr
  | [.int a] => .ok (f a)
  | [_] => .error .operandType
  | _ => .error .arity

/-- Formats with two integer operands (VB, L2, VL, LC, S2, VS, FJ, FR). -/
def fields2 (f : Int → Int → Instr) : List Py → Except Check Instr
  | [.int a, .int b] => .ok (f a b)
  | [_, _] => .error .operandType
  | _ => .error .arity

/-- Formats with three integer operands (A3, V3, LO, FI). -/
def fields3 (f : Int → Int → Int → Instr) : List Py → Except Check Instr
  | [.int a, .int b, .int c] => .ok (f a b c)
  | [_, _, _] => .error .operandType
  | _ => .error .arity

/-- Formats with four integer operands (VM, F4, FV). -/
def fields4 (f : Int → Int → Int → Int → Instr) : List Py → Except Check Instr
  | [.int a, .int b, .int c, .int d] => .ok (f a b c d)
  | [_, _, _, _] => .error .operandType
  | _ => .error .arity

/-- Format DC: a scratch address and a key, which may be any value (R85). -/
def fieldsKey (f : Int → Key → Instr) : List Py → Except Check Instr
  | [.int a, k] => .ok (f a k)
  | [_, _] => .error .operandType
  | _ => .error .arity

/-- Format DV: a scratch address and a list of keys; that there are 8 of them is `Instr.keysFit`. -/
def fieldsKeys (f : Int → List Key → Instr) : List Py → Except Check Instr
  | [.int a, .list ks] => .ok (f a ks.toList)
  | [_, _] => .error .operandType
  | _ => .error .arity

/-- A reader of the fields of one operation. -/
abbrev FieldReader := List Py → Except Check Instr

/-- The operation map of R88: the names an engine knows, character by character, each with the reader of its format (R84).
The name in letters stands beside each, and the tests compare the two. -/
def opMap : Engine → List (Text × FieldReader)
  | .alu =>
    [([43], fields3 .aluAdd),  -- +
     ([45], fields3 .aluSub),  -- -
     ([42], fields3 .aluMul),  -- *
     ([47, 47], fields3 .aluDiv),  -- //
     ([99, 100, 105, 118], fields3 .aluCdiv),  -- cdiv
     ([94], fields3 .aluXor),  -- ^
     ([38], fields3 .aluAnd),  -- &
     ([124], fields3 .aluOr),  -- |
     ([60, 60], fields3 .aluShl),  -- <<
     ([62, 62], fields3 .aluShr),  -- >>
     ([37], fields3 .aluMod),  -- %
     ([60], fields3 .aluLt),  -- <
     ([61, 61], fields3 .aluEq)]  -- ==
  | .valu =>
    [([43], fields3 .valuAdd),  -- +
     ([45], fields3 .valuSub),  -- -
     ([42], fields3 .valuMul),  -- *
     ([47, 47], fields3 .valuDiv),  -- //
     ([99, 100, 105, 118], fields3 .valuCdiv),  -- cdiv
     ([94], fields3 .valuXor),  -- ^
     ([38], fields3 .valuAnd),  -- &
     ([124], fields3 .valuOr),  -- |
     ([60, 60], fields3 .valuShl),  -- <<
     ([62, 62], fields3 .valuShr),  -- >>
     ([37], fields3 .valuMod),  -- %
     ([60], fields3 .valuLt),  -- <
     ([61, 61], fields3 .valuEq),  -- ==
     ([118, 98, 114, 111, 97, 100, 99, 97, 115, 116], fields2 .vbroadcast),  -- vbroadcast
     ([109, 117, 108, 116, 105, 112, 108, 121, 95, 97, 100, 100], fields4 .multiplyAdd)]  -- multiply_add
  | .load =>
    [([108, 111, 97, 100], fields2 .load),  -- load
     ([108, 111, 97, 100, 95, 111, 102, 102, 115, 101, 116], fields3 .loadOffset),  -- load_offset
     ([118, 108, 111, 97, 100], fields2 .vload),  -- vload
     ([99, 111, 110, 115, 116], fields2 .const)]  -- const
  | .store =>
    [([115, 116, 111, 114, 101], fields2 .store),  -- store
     ([118, 115, 116, 111, 114, 101], fields2 .vstore)]  -- vstore
  | .flow =>
    [([115, 101, 108, 101, 99, 116], fields4 .select),  -- select
     ([118, 115, 101, 108, 101, 99, 116], fields4 .vselect),  -- vselect
     ([97, 100, 100, 95, 105, 109, 109], fields3 .addImm),  -- add_imm
     ([104, 97, 108, 116], fields0 .halt),  -- halt
     ([112, 97, 117, 115, 101], fields0 .pause),  -- pause
     ([116, 114, 97, 99, 101, 95, 119, 114, 105, 116, 101], fields1 .traceWrite),  -- trace_write
     ([99, 111, 110, 100, 95, 106, 117, 109, 112], fields2 .condJump),  -- cond_jump
     ([99, 111, 110, 100, 95, 106, 117, 109, 112, 95, 114, 101, 108], fields2 .condJumpRel),  -- cond_jump_rel
     ([106, 117, 109, 112], fields1 .jump),  -- jump
     ([106, 117, 109, 112, 95, 105, 110, 100, 105, 114, 101, 99, 116], fields1 .jumpIndirect),  -- jump_indirect
     ([99, 111, 114, 101, 105, 100], fields1 .coreid)]  -- coreid
  | .debug =>
    [([99, 111, 109, 112, 97, 114, 101], fieldsKey .compare),  -- compare
     ([118, 99, 111, 109, 112, 97, 114, 101], fieldsKeys .vcompare)]  -- vcompare

/-- The row of an operation map under a name. -/
def findOp (name : Text) : List (Text × FieldReader) → Option FieldReader
  | [] => none
  | (n, r) :: rest => if n = name then some r else findOp name rest

/-- A slot under an engine's key, shape only: a tuple (`slots-are-lists`) whose element 0 is the name of one of the
engine's operations (`op-known`), with the fields of that operation (`arity`, `operand-type`). -/
def readSlot (e : Engine) : Py → Except Check Instr
  | .tup items =>
    match items.toList with
    | .str name :: fields =>
      match findOp name (opMap e) with
      | some read => read fields
      | none => .error .opKnown
    | _ => .error .opKnown
  | _ => .error .slotsAreLists

/-- A slot that also passes the checks of WellFormed. -/
def decodeSlot (e : Engine) (p : Py) : Except Check Instr :=
  match readSlot e p with
  | .ok i =>
    match i.failedCheck e with
    | some c => .error c
    | none => .ok i
  | .error c => .error c

/-! ## From a literal to a bundle (R80, R81, R90) -/

/-- The slots of one list, in its order; the first that fails names the check. -/
def readSlots (e : Engine) : List Py → Except Check (List Instr)
  | [] => .ok []
  | p :: ps =>
    match readSlot e p with
    | .ok i =>
      match readSlots e ps with
      | .ok is => .ok (i :: is)
      | .error c => .error c
    | .error c => .error c

/-- The value under an engine's key, wherever in the dictionary it stands: the order of the keys has no meaning (R95). -/
def entryUnder (e : Engine) : List (Py × Py) → Option Py
  | [] => none
  | (k, v) :: rest => if k = .str e.key then some v else entryUnder e rest

/-- What a dictionary gives one engine: nothing where it lacks the key, else a list of slots (`slots-are-lists`). -/
def readEngine (e : Engine) (entries : List (Py × Py)) : Except Check (Option (List Instr)) :=
  match entryUnder e entries with
  | none => .ok none
  | some (.list items) =>
    match readSlots e items.toList with
    | .ok is => .ok (some is)
    | .error c => .error c
  | some _ => .error .slotsAreLists

/-- Whether a value is one of the six engine keys (R81). -/
def isEngineKey (k : Py) : Bool := Engine.order.any (fun e => k == .str e.key)

/-- Whether no value stands twice in a list. -/
def allDistinct : List Py → Bool
  | [] => true
  | x :: xs => !xs.contains x && allDistinct xs

/-- The bundle a dictionary's entries make, shape only: all keys are known, no key stands twice, and then, engine by engine
in the processing order, the slots have the shape of an operation. DESIGN CHOICE (log entry 12): the order of the checks. -/
def readEntries (entries : List (Py × Py)) : Except Check Bundle :=
  if !(entries.all (fun kv => isEngineKey kv.1)) then .error .keysKnown
  else if !allDistinct (entries.map Prod.fst) then .error .keysUnique
  else do
    let alu ← readEngine .alu entries
    let valu ← readEngine .valu entries
    let load ← readEngine .load entries
    let store ← readEngine .store entries
    let flow ← readEngine .flow entries
    let debug ← readEngine .debug entries
    return ⟨alu, valu, load, store, flow, debug⟩

/-- A bundle, or the check of R90 it fails. DESIGN CHOICE (log entry 12): R90 and R206 ask for the name of the failed check
and do not say which where several fail. The keys come first, then the shape of the slots of all engines (`readEntries`),
and only then, engine by engine again, `slot-limit`, the number of keys of a `vcompare` and `scratch-range`
(`Bundle.failedCheck`); so an `alu` slot out of range beside a `valu` slot of wrong arity is named `arity`. -/
def decodeBundle : Py → Except Check Bundle
  | .dict entries =>
    match readEntries entries.toList with
    | .ok b =>
      match b.failedCheck with
      | some c => .error c
      | none => .ok b
    | .error c => .error c
  | _ => .error .bundleIsDict

/-- The bundle a text writes, or the check it fails; a text of no literal is no dictionary. -/
def decodeText (t : Text) : Except Check Bundle :=
  match parseText t with
  | some p => decodeBundle p
  | none => .error .bundleIsDict

/-- The first bundle of a program that is ill-formed: its index and the check it fails (R90). DESIGN CHOICE (log entry 12): R90
asks a refused launch to name the bundle and does not say which where several are ill-formed; the lowest index is named. -/
def firstIllFormed : Nat → List Py → Option (Nat × Check)
  | _, [] => none
  | n, p :: ps =>
    match decodeBundle p with
    | .error c => some (n, c)
    | .ok _ => firstIllFormed (n + 1) ps

/-! ## The encoder -/

/-- The name of an operation in its slot, character by character (R88, R89). -/
def Instr.opName : Instr → Text
  | .aluAdd _ _ _ | .valuAdd _ _ _ => [43]  -- +
  | .aluSub _ _ _ | .valuSub _ _ _ => [45]  -- -
  | .aluMul _ _ _ | .valuMul _ _ _ => [42]  -- *
  | .aluDiv _ _ _ | .valuDiv _ _ _ => [47, 47]  -- //
  | .aluCdiv _ _ _ | .valuCdiv _ _ _ => [99, 100, 105, 118]  -- cdiv
  | .aluXor _ _ _ | .valuXor _ _ _ => [94]  -- ^
  | .aluAnd _ _ _ | .valuAnd _ _ _ => [38]  -- &
  | .aluOr _ _ _ | .valuOr _ _ _ => [124]  -- |
  | .aluShl _ _ _ | .valuShl _ _ _ => [60, 60]  -- <<
  | .aluShr _ _ _ | .valuShr _ _ _ => [62, 62]  -- >>
  | .aluMod _ _ _ | .valuMod _ _ _ => [37]  -- %
  | .aluLt _ _ _ | .valuLt _ _ _ => [60]  -- <
  | .aluEq _ _ _ | .valuEq _ _ _ => [61, 61]  -- ==
  | .vbroadcast _ _ => [118, 98, 114, 111, 97, 100, 99, 97, 115, 116]  -- vbroadcast
  | .multiplyAdd _ _ _ _ => [109, 117, 108, 116, 105, 112, 108, 121, 95, 97, 100, 100]  -- multiply_add
  | .load _ _ => [108, 111, 97, 100]  -- load
  | .loadOffset _ _ _ => [108, 111, 97, 100, 95, 111, 102, 102, 115, 101, 116]  -- load_offset
  | .vload _ _ => [118, 108, 111, 97, 100]  -- vload
  | .const _ _ => [99, 111, 110, 115, 116]  -- const
  | .store _ _ => [115, 116, 111, 114, 101]  -- store
  | .vstore _ _ => [118, 115, 116, 111, 114, 101]  -- vstore
  | .select _ _ _ _ => [115, 101, 108, 101, 99, 116]  -- select
  | .vselect _ _ _ _ => [118, 115, 101, 108, 101, 99, 116]  -- vselect
  | .addImm _ _ _ => [97, 100, 100, 95, 105, 109, 109]  -- add_imm
  | .halt => [104, 97, 108, 116]  -- halt
  | .pause => [112, 97, 117, 115, 101]  -- pause
  | .traceWrite _ => [116, 114, 97, 99, 101, 95, 119, 114, 105, 116, 101]  -- trace_write
  | .condJump _ _ => [99, 111, 110, 100, 95, 106, 117, 109, 112]  -- cond_jump
  | .condJumpRel _ _ => [99, 111, 110, 100, 95, 106, 117, 109, 112, 95, 114, 101, 108]  -- cond_jump_rel
  | .jump _ => [106, 117, 109, 112]  -- jump
  | .jumpIndirect _ => [106, 117, 109, 112, 95, 105, 110, 100, 105, 114, 101, 99, 116]  -- jump_indirect
  | .coreid _ => [99, 111, 114, 101, 105, 100]  -- coreid
  | .compare _ _ => [99, 111, 109, 112, 97, 114, 101]  -- compare
  | .vcompare _ _ => [118, 99, 111, 109, 112, 97, 114, 101]  -- vcompare

/-- The fields after the name, in the order of the operation's format (R84). -/
def Instr.fields : Instr → List Py
  | .aluAdd d a b | .aluSub d a b | .aluMul d a b | .aluDiv d a b | .aluCdiv d a b | .aluXor d a b | .aluAnd d a b
  | .aluOr d a b | .aluShl d a b | .aluShr d a b | .aluMod d a b | .aluLt d a b | .aluEq d a b
  | .valuAdd d a b | .valuSub d a b | .valuMul d a b | .valuDiv d a b | .valuCdiv d a b | .valuXor d a b
  | .valuAnd d a b | .valuOr d a b | .valuShl d a b | .valuShr d a b | .valuMod d a b | .valuLt d a b
  | .valuEq d a b | .loadOffset d a b | .addImm d a b => [.int d, .int a, .int b]
  | .vbroadcast a b | .load a b | .vload a b | .const a b | .store a b | .vstore a b | .condJump a b
  | .condJumpRel a b => [.int a, .int b]
  | .multiplyAdd d a b c | .select d a b c | .vselect d a b c => [.int d, .int a, .int b, .int c]
  | .halt | .pause => []
  | .traceWrite a | .jump a | .jumpIndirect a | .coreid a => [.int a]
  | .compare a k => [.int a, k]
  | .vcompare a ks => [.int a, .list (Pys.ofList ks)]

/-- The tuple of a slot (R82, R84). -/
def encodeSlot (i : Instr) : Py := .tup (Pys.ofList (.str i.opName :: i.fields))

/-- The entry of one engine in the dictionary, if the bundle has its key. -/
def encodeEntry (b : Bundle) (e : Engine) : List (Py × Py) :=
  match b.entry e with
  | none => []
  | some is => [(.str e.key, .list (Pys.ofList (is.map encodeSlot)))]

/-- The dictionary of a bundle (R80), its keys in the engine processing order. -/
def encodeBundle (b : Bundle) : Py := .dict (Kvs.ofList (Engine.order.flatMap (encodeEntry b)))

/-- The program of a list of bundles. -/
def encodeProgram (bs : List Bundle) : List Py := bs.map encodeBundle

/-! ## From a literal to its text -/

mutual
/-- The tokens of a literal. -/
def Py.toks : Py → List Tok
  | .int n => [.int n]
  | .str t => [.str t]
  | .tup .nil => [.lparen, .rparen]
  | .tup (.cons x .nil) => .lparen :: (x.toks ++ [.comma, .rparen])
  | .tup (.cons x (.cons y ys)) => .lparen :: (x.toks ++ (Pys.tailToks (.cons y ys) ++ [.rparen]))
  | .list .nil => [.lbrack, .rbrack]
  | .list (.cons x xs) => .lbrack :: (x.toks ++ (xs.tailToks ++ [.rbrack]))
  | .dict .nil => [.lbrace, .rbrace]
  | .dict (.cons k v rest) => .lbrace :: (k.toks ++ (.colon :: (v.toks ++ (rest.tailToks ++ [.rbrace]))))
/-- The tokens of the items after the first. -/
def Pys.tailToks : Pys → List Tok
  | .nil => []
  | .cons x xs => .comma :: (x.toks ++ xs.tailToks)
/-- The tokens of the entries after the first. -/
def Kvs.tailToks : Kvs → List Tok
  | .nil => []
  | .cons k v rest => .comma :: (k.toks ++ (.colon :: (v.toks ++ rest.tailToks)))
end

/-- The decimal digits of a natural number, the most significant first; `fuel` is the most digits it writes. -/
def digitsOf : Nat → Nat → Text → Text
  | 0, _, acc => acc
  | fuel + 1, n, acc =>
    let acc' := BitVec.ofNat 8 (48 + n % 10) :: acc
    if n / 10 = 0 then acc' else digitsOf fuel (n / 10) acc'

/-- A natural number in decimal. -/
def natText (n : Nat) : Text := digitsOf (n.log2 + 1) n []

/-- The characters of a token. -/
def Tok.text : Tok → Text
  | .lbrace => [123]
  | .rbrace => [125]
  | .lbrack => [91]
  | .rbrack => [93]
  | .lparen => [40]
  | .rparen => [41]
  | .comma => [44]
  | .colon => [58]
  | .int n => if n < 0 then 45 :: natText n.natAbs else natText n.natAbs
  | .str t => 34 :: (t ++ [34])

/-- The text of tokens, each followed by a blank. -/
def textOf (ts : List Tok) : Text := ts.flatMap (fun t => t.text ++ [32])

/-- The text of a literal (R93). -/
def Py.text (p : Py) : Text := textOf p.toks

/-- The text of a program: a list of dictionaries (R93). -/
def programText (ps : List Py) : Text := (Py.list (Pys.ofList ps)).text

/-- A string the format can write: no double quote, no backslash, no line end (log entry 9). -/
def writableText (t : Text) : Bool :=
  t.all (fun c => c.toNat != 34 && c.toNat != 92 && c.toNat != 10 && c.toNat != 13)

mutual
/-- Whether every string in a literal can be written. -/
def Py.writable : Py → Bool
  | .int _ => true
  | .str t => writableText t
  | .tup xs => xs.writable
  | .list xs => xs.writable
  | .dict kvs => kvs.writable
def Pys.writable : Pys → Bool
  | .nil => true
  | .cons x xs => x.writable && xs.writable
def Kvs.writable : Kvs → Bool
  | .nil => true
  | .cons k v rest => k.writable && (v.writable && rest.writable)
end

/-! ## The numbered words of the opcode table -/

/-- The characters of a text held in a number, the first in its least significant byte. -/
def textOfNat : Nat → Nat → Text
  | 0, _ => []
  | n + 1, w => BitVec.ofNat 8 w :: textOfNat n (w / 256)

/-- The literal of an instruction whose bits are `w`: its text, of `nbits / 8` characters, is the literal of a bundle
(log entry 8: the table gives no row any bits, so the only bits an instruction has are those of its text). A text that
is no literal stands as the string it is, which no check of R90 admits as a bundle. -/
def literalOfBits (nbits w : Nat) : Py :=
  match parseText (textOfNat (nbits / 8) w) with
  | some p => p
  | none => .str (textOfNat (nbits / 8) w)

/-- The slots of a bundle in the processing order. -/
def Bundle.allSlots (b : Bundle) : List Instr := Engine.order.flatMap b.slots

/-- The instruction of a bundle literal that holds exactly one slot. -/
def decodeTableWord (nbits w : Nat) : Option Instr :=
  match decodeBundle (literalOfBits nbits w) with
  | .ok b =>
    match b.allSlots with
    | [i] => some i
    | _ => none
  | .error _ => none

end Sys2Proof
end

