-- ==== Sys2Proof/Machine/Flags.lean ====
section
/-! DEFINITION. The machine has no flags, no condition codes and no predicates (10_state.md R29): a condition is a word,
written by a comparison and tested against 0. -/

namespace Sys2Proof.Machine

/-- The word a comparison writes, 1 or 0 (40_alu.md R122, R123). -/
def boolWord (b : Bool) : Word := if b then 1 else 0

/-- Whether a word counts as true: any word other than 0 (44_flow.md R174, R180). -/
def isTrue (w : Word) : Bool := decide (w ≠ 0)

end Sys2Proof.Machine
end

