-- ==== Sys2Proof/Machine/Arith.lean ====
section
/-! DEFINITION. The function `f(A, B)` of each of the 13 ALU operations (40_alu.md R111 to R123), used per lane by the VALU
(41_valu.md R130). Each is computed in the unbounded integers and reduced modulo 2^32 (R110). Nothing answers where the
spec raises `DivideByZero` (R124). -/

namespace Sys2Proof.Machine

/-- The function of an operation: nothing where the divisor is 0. -/
abbrev LaneFn := Word → Word → Option Word

/-- R111. -/
def addLane : LaneFn := fun a b => some (Word.ofNatMod (a.toNat + b.toNat))

/-- R112: a difference below 0 wraps upward. -/
def subLane : LaneFn := fun a b => some (Word.ofIntMod ((a.toNat : Int) - (b.toNat : Int)))

/-- R113: the low 32 bits of the product. -/
def mulLane : LaneFn := fun a b => some (Word.ofNatMod (a.toNat * b.toNat))

/-- R114: the floor of the exact unsigned quotient. -/
def divLane : LaneFn := fun a b =>
  if b.toNat = 0 then none else some (Word.ofNatMod (a.toNat / b.toNat))

/-- R115: the least `q` with `q * B >= A`; the sum is not wrapped. -/
def cdivLane : LaneFn := fun a b =>
  if b.toNat = 0 then none else some (Word.ofNatMod ((a.toNat + b.toNat - 1) / b.toNat))

/-- R116. -/
def xorLane : LaneFn := fun a b => some (a ^^^ b)

/-- R117. -/
def andLane : LaneFn := fun a b => some (a &&& b)

/-- R118. -/
def orLane : LaneFn := fun a b => some (a ||| b)

/-- R119: the count is the whole word, never masked; 32 or more gives 0. -/
def shlLane : LaneFn := fun a b =>
  some (if 32 ≤ b.toNat then 0 else Word.ofNatMod (a.toNat * 2 ^ b.toNat))

/-- R120: logical; the count is the whole word; 32 or more gives 0. -/
def shrLane : LaneFn := fun a b =>
  some (if 32 ≤ b.toNat then 0 else Word.ofNatMod (a.toNat / 2 ^ b.toNat))

/-- R121: `A - B * (A div B)`. -/
def modLane : LaneFn := fun a b =>
  if b.toNat = 0 then none else some (Word.ofNatMod (a.toNat % b.toNat))

/-- R122: the comparison of the two words as unsigned integers. -/
def ltLane : LaneFn := fun a b => some (boolWord (decide (a.toNat < b.toNat)))

/-- R123. -/
def eqLane : LaneFn := fun a b => some (boolWord (decide (a.toNat = b.toNat)))

/-- The lane of `multiply_add`: product and sum are exact and reduced once (41_valu.md R145). -/
def mulAddLane (a b c : Word) : Word := Word.ofNatMod (a.toNat * b.toNat + c.toNat)

end Sys2Proof.Machine
end

