-- ==== Sys2Proof/Machine/State.lean ====
section
/-! DEFINITION. The whole state (10_state.md R20), the reasons a step stops (60_exceptions.md R206), and the state right
after reset, which on this machine is a launch (R38, 70_reset_and_hazards.md R235). -/

namespace Sys2Proof.Machine

/-- Why the machine cannot go on (60_exceptions.md R205, R206), with the information R206 records. `index` is the index of
the bundle, `slot` the place of the slot in its engine's list. Every one of them is safe: the spec's own decisions D2, D3,
D5, D10, D15, D17 and D18 make the machine stop there, "toward unprovable". -/
inductive Fault where
  /-- No. 1: the fetch of a bundle that fails a check of R90, and a meaning applied to a slot that fails one. Safe. -/
  | illFormedBundle (index : Int) (check : Check)
  /-- No. 2: the fetch at a `pc` outside the program. Safe. -/
  | fetchOutOfRange (pc : Int)
  /-- No. 3: `//`, `cdiv` and `%` of the ALU (no lane) and of the VALU (the first lane with divisor 0). Safe. -/
  | divideByZero (index : Int) (engine : Engine) (slot : Nat) (lane : Option Nat)
  /-- No. 4: `load`, `load_offset`, `vload`, `store`, `vstore`, with the first address `>= MEM_SIZE`. Safe. -/
  | memOutOfRange (index : Int) (engine : Engine) (slot : Nat) (address : Nat)
  /-- No. 5: `compare`, `vcompare`, with the first key that `VALUE_TRACE` lacks. Safe. -/
  | debugKeyMissing (index : Int) (slot : Nat) (key : Key)
  /-- No. 6: `compare`, `vcompare`, with the first cell that differs from its entry. Safe. -/
  | debugAssertFailed (index : Int) (slot : Nat) (cell : Nat) (key : Key)
deriving DecidableEq, Repr

/-- Why something is not run at all. -/
inductive Refusal where
  /-- Raised by an arm of `exec` that has no meaning yet. Safe. No arm of this model raises it. -/
  | notModelled (mnemonic : String)
  /-- Raised by `launch`: the program is refused before it runs, with the index of the bundle and the check it
  fails (30_encoding.md R90). Safe. -/
  | illFormedProgram (index : Nat) (check : Check)
  /-- Raised by `launch`: the memory image is not the content of an array of `MEM_SIZE` words (00_scope.md R7).
  Safe. -/
  | imageDoesNotFit
deriving DecidableEq, Repr

/-- The run states of R28. -/
inductive RunState where
  | running | paused | stopped
deriving DecidableEq, Repr

/-- Main memory: the words that are not 0, by rising address, "a number, not bytes" (20_memory.md R50, R51). -/
abbrev Mem := List (Nat × Word)

/-- What an address that is not listed reads as. DESIGN CHOICE (log entry 1): the image of a launch lists every word that is
not 0, so this fixes no content of memory; it is the content of State.reset's memory. -/
def Mem.unlisted : Word := 0

/-- The canonical form: addresses strictly rising, and no entry that an unlisted address would read as. -/
abbrev Mem.wf (m : Mem) : Prop :=
  m.Pairwise (fun p q => p.1 < q.1) ∧ ∀ p ∈ m, p.2 ≠ Mem.unlisted

/-- Whether every listed address exists in an array of `size` words. -/
abbrev Mem.within (m : Mem) (size : Nat) : Prop := ∀ p ∈ m, p.1 < size

/-- What a bundle step has gathered and not yet committed: the local variables of the step of 20_memory.md R56, "which are
empty at every cycle boundary" (10_state.md R36). -/
structure Pending where
  /-- `SW`: pending scratch writes, in order. -/
  scratch : List (Nat × Word)
  /-- `MW`: pending memory writes, in order. -/
  mem     : List (Nat × Word)
  /-- `TB`: words to append to the trace buffer. -/
  trace   : List Word
  /-- `next_pc`, once an operation has performed `pc <- target`; before that it is `pc + 1` (R25). -/
  nextPc  : Option Int
  /-- `next_rs`. -/
  nextRs  : RunState
  /-- The place, in its engine's list, of the slot being evaluated; only a fault records it. -/
  slot    : Nat
deriving DecidableEq, Repr

/-- The pending lists at a cycle boundary. -/
def Pending.empty : Pending := ⟨[], [], [], none, .running, 0⟩

/-- The state: the tuple of R20, the launch parameters, the pending lists of a step (R36), and the host's part in the
interface of 60_exceptions.md R215. -/
structure State where
  /-- The launch parameters (00_scope.md R7); no step changes them. -/
  params   : Params
  /-- The scratch space (R21): the register file of 1536 words. -/
  scratch  : Vector Word scratchSize
  /-- Main memory (R35). -/
  mem      : Mem
  /-- The program counter, an integer of any size and sign (R26). -/
  pc       : Int
  runState : RunState
  /-- The cycle counter, never wrapped (60_exceptions.md R214). -/
  cycle    : Nat
  /-- The trace buffer, of no stated capacity (R39). -/
  traceBuf : List Word
  /-- The fault that ended the run, if any (60_exceptions.md R205). -/
  fault    : Option Fault
  /-- The lists of the step under way. -/
  pending  : Pending
  /-- Whether the host is inside `run()` (20_memory.md R56, 60_exceptions.md R215). The host's, not the machine's. -/
  inRun    : Bool
  /-- How many further `run()` calls the host makes (60_exceptions.md R219). The host's, not the machine's. -/
  runCalls : Nat
deriving DecidableEq, Repr

/-- The state a launch makes (R38, 70_reset_and_hazards.md R235): scratch all 0, memory the image, `pc` 0, `RUNNING`,
`cycle` 0, an empty trace buffer, no fault; nothing has executed and the host is not yet inside `run()`. -/
def State.ofLaunch (p : Params) (image : Mem) (runCalls : Nat) : State where
  params := p
  scratch := Vector.replicate scratchSize 0
  mem := image
  pc := 0
  runState := .running
  cycle := 0
  traceBuf := []
  fault := none
  pending := Pending.empty
  inRun := false
  runCalls := runCalls

/-- The machine right after reset: the launch of `Params.bare` over memory with nothing listed. DESIGN CHOICE, unsafe
(log entries 1 to 4): the parameters the spec leaves OPEN have a value here. -/
def State.reset : State := State.ofLaunch Params.bare [] 0

end Sys2Proof.Machine
end

