-- ==== Sys2Proof/Machine/Ops.lean ====
section
/-! DEFINITION. The named operations over the state: reads of the start-of-cycle scratch and memory, pending writes and the
other pending effects of a slot (00_scope.md R10, 20_memory.md R56), the commit, and taking a fault (60_exceptions.md R208).
There is no return from a fault (R210). -/

namespace Sys2Proof.Machine

/-- What a slot or a step ends in. -/
abbrev Outcome := Host.Outcome State Fault Refusal

/-- The word at an address. -/
def Mem.read : Mem → Nat → Word
  | [], _ => Mem.unlisted
  | (b, w) :: rest, a => if a = b then w else Mem.read rest a

/-- Memory with one word replaced. -/
def Mem.write : Mem → Nat → Word → Mem
  | [], a, v => if v = Mem.unlisted then [] else [(a, v)]
  | (b, w) :: rest, a, v =>
    if a < b then (if v = Mem.unlisted then (b, w) :: rest else (a, v) :: (b, w) :: rest)
    else if a = b then (if v = Mem.unlisted then rest else (a, v) :: rest)
    else (b, w) :: Mem.write rest a v

/-- `x[a]`: the word in a scratch cell as it was at the start of the cycle (R10). No write of a bundle lands before its
commit, so the scratch space of the state is the snapshot `S0` of R56. The meanings read only addresses they have
checked. -/
def State.x (s : State) (a : Int) : Word := s.scratch[a.toNat]?.getD 0

/-- `MemRead` of one word, at the start of the cycle (R10). -/
def State.memAt (s : State) (m : Nat) : Word := s.mem.read m

/-- `x[a] <- v`: the write is appended to the pending scratch writes (R10). -/
def State.pend (s : State) (a : Int) (v : Word) : State :=
  { s with pending := { s.pending with scratch := s.pending.scratch ++ [(a.toNat, v)] } }

/-- The pending writes of a vector at base `a`: lane `i` to cell `a + i` (10_state.md R34). -/
def laneWrites (a : Nat) (v : Nat → Word) : List (Nat × Word) :=
  (List.range vlen).map (fun i => (a + i, v i))

/-- `x[a+i] <- v i` for `i` in `0..7`. -/
def State.pendVector (s : State) (a : Int) (v : Nat → Word) : State :=
  { s with pending := { s.pending with scratch := s.pending.scratch ++ laneWrites a.toNat v } }

/-- `MemWrite(m, 1, v)` (R10). -/
def State.pendMem (s : State) (m : Nat) (v : Word) : State :=
  { s with pending := { s.pending with mem := s.pending.mem ++ [(m, v)] } }

/-- `MemWrite(m, 8, v)`: word `i` to address `m + i`, not wrapped (R10, R53). -/
def State.pendMemVector (s : State) (m : Nat) (v : Nat → Word) : State :=
  { s with pending := { s.pending with mem := s.pending.mem ++ laneWrites m v } }

/-- `pc <- t` (R10). -/
def State.pendPc (s : State) (t : Int) : State := { s with pending := { s.pending with nextPc := some t } }

/-- `next_rs := r` (R56). -/
def State.pendRunState (s : State) (r : RunState) : State := { s with pending := { s.pending with nextRs := r } }

/-- One word more to append to the trace buffer (44_flow.md R179). -/
def State.pendTrace (s : State) (w : Word) : State :=
  { s with pending := { s.pending with trace := s.pending.trace ++ [w] } }

/-- The first address of an access to `n` words from `m` on that is `>= MEM_SIZE`, if there is one (20_memory.md R53). -/
def State.firstOutside (s : State) (m n : Nat) : Option Nat :=
  ((List.range n).map (fun i => m + i)).find? (fun a => decide (s.params.memSize ≤ a))

/-- The pending lists emptied: the beginning of a bundle step (R56). -/
def State.beginCycle (s : State) : State := { s with pending := Pending.empty }

/-- The slot to be evaluated is the one at place `n` of its engine's list. -/
def State.atSlot (s : State) (n : Nat) : State := { s with pending := { s.pending with slot := n } }

/-- Pending scratch writes applied in their order, so that the last write to a cell wins (20_memory.md R58). -/
def applyScratch (x : Vector Word scratchSize) (ws : List (Nat × Word)) : Vector Word scratchSize :=
  ws.foldl (fun y w => y.setIfInBounds w.1 w.2) x

/-- Pending memory writes applied in their order, so that the last write to an address wins (R59). -/
def applyMem (m : Mem) (ws : List (Nat × Word)) : Mem :=
  ws.foldl (fun n w => Mem.write n w.1 w.2) m

/-- The commit that ends a bundle step (R56). `counts` says whether the bundle adds 1 to the cycle counter
(60_exceptions.md R214). When the run state is no longer `RUNNING`, the host's `run()` returns (R215). -/
def State.commit (s : State) (counts : Bool) : State :=
  { s with
    scratch := applyScratch s.scratch s.pending.scratch
    mem := applyMem s.mem s.pending.mem
    traceBuf := s.traceBuf ++ s.pending.trace
    pc := s.pending.nextPc.getD (s.pc + 1)
    runState := s.pending.nextRs
    cycle := if counts then s.cycle + 1 else s.cycle
    inRun := decide (s.pending.nextRs = .running)
    pending := Pending.empty }

/-- Taking a fault: nothing of the bundle commits, every component keeps its value from the start of the step, and the
reason is recorded (60_exceptions.md R205, R208); the host's `run()` returns (R215). Control goes nowhere (R209). -/
def State.takeFault (s : State) (r : Fault) : State :=
  { s with pending := Pending.empty, inRun := false, fault := some r }

end Sys2Proof.Machine
end

