-- ==== Sys2Proof/Machine/Operands.lean ====
section
/-! DEFINITION. The operand forms (30_encoding.md R84, R85): the check of the scratch addresses a slot names, and the shape
of each format that more than one operation has. A slot whose addresses fail the check has no meaning; the step never
evaluates one, since the fetch has checked the bundle (R90). -/

namespace Sys2Proof.Machine

/-- A slot that names the single cells `cells` and the vectors at `bases`: run where all are in range (R85), else the
fault of an ill-formed bundle. DESIGN CHOICE (log entry 12): R85, R90 and D5 speak of the launch and of the fetch of a
bundle, and give no meaning to one slot that fails the check. -/
def checked (cells bases : List Int) (s : State) (run : Outcome) : Outcome :=
  if cells.all scalarAddr && bases.all vectorAddr then run
  else .fault (.illFormedBundle s.pc .scratchRange)

/-- Format A3 with the function of an operation (40_alu.md R110). -/
def aluOp (f : LaneFn) (dest a1 a2 : Int) (s : State) : Outcome :=
  checked [dest, a1, a2] [] s
    (match f (s.x a1) (s.x a2) with
     | some v => .next (s.pend dest v)
     | none => .fault (.divideByZero s.pc .alu s.pending.slot none))

/-- Format V3 with the function of an operation: lane `i` of the result is the function of lanes `i` of the sources, and
a divisor of 0 in any lane faults the whole slot (41_valu.md R130). -/
def valuOp (f : LaneFn) (dest a1 a2 : Int) (s : State) : Outcome :=
  checked [] [dest, a1, a2] s
    (match (List.range vlen).find? (fun i : Nat => (f (s.x (a1 + (i : Int))) (s.x (a2 + (i : Int)))).isNone) with
     | some lane => .fault (.divideByZero s.pc .valu s.pending.slot (some lane))
     | none => .next (s.pendVector dest (fun i => (f (s.x (a1 + (i : Int))) (s.x (a2 + (i : Int)))).getD 0)))

/-- An access by an engine to `n` words from address `m` on: run where every address exists, else the fault with the first
that does not (20_memory.md R53). -/
def inMemory (e : Engine) (m n : Nat) (s : State) (run : Outcome) : Outcome :=
  match s.firstOutside m n with
  | some a => .fault (.memOutOfRange s.pc e s.pending.slot a)
  | none => run

/-- One word from the memory address held in cell `addr` to cell `dest` (42_load.md R155, R156). -/
def loadOp (dest addr : Int) (s : State) : Outcome :=
  checked [dest, addr] [] s
    (inMemory .load (s.x addr).toNat 1 s (.next (s.pend dest (s.memAt (s.x addr).toNat))))

/-- A conditional jump: to `target` where cell `cond` holds a word other than 0, else on to the next bundle
(44_flow.md R180, R181). -/
def condJumpOp (cond target : Int) (s : State) : Outcome :=
  checked [cond] [] s (if isTrue (s.x cond) then .next (s.pendPc target) else .next s)

/-- What a Debug slot does with the pairs of cell and key it compares, when Debug slots are executed: first every key is
looked up, then every cell is compared with its entry as an integer (45_debug.md R195 to R197). It writes nothing. -/
def compareOp (pairs : List (Int × Key)) (s : State) : Outcome :=
  match pairs.find? (fun p => (s.params.traceAt p.2).isNone) with
  | some p => .fault (.debugKeyMissing s.pc s.pending.slot p.2)
  | none =>
    match pairs.find? (fun p => decide (s.params.traceAt p.2 ≠ some ((s.x p.1).toNat : Int))) with
    | some p => .fault (.debugAssertFailed s.pc s.pending.slot p.1.toNat p.2)
    | none => .next s

end Sys2Proof.Machine
end

