-- ==== Sys2Proof/Machine/Alu.lean ====
section
/-! DEFINITION. The 13 operations of the ALU engine (40_alu.md): each reads cells `a1` and `a2` and has the one pending
write of its function's value to cell `dest`. -/

namespace Sys2Proof.Machine

/-- ALU `+` (R111). -/
def execAluAdd (dest a1 a2 : Int) (s : State) : Outcome := aluOp addLane dest a1 a2 s

/-- ALU `-` (R112). -/
def execAluSub (dest a1 a2 : Int) (s : State) : Outcome := aluOp subLane dest a1 a2 s

/-- ALU `*` (R113). -/
def execAluMul (dest a1 a2 : Int) (s : State) : Outcome := aluOp mulLane dest a1 a2 s

/-- ALU `//` (R114). -/
def execAluDiv (dest a1 a2 : Int) (s : State) : Outcome := aluOp divLane dest a1 a2 s

/-- ALU `cdiv` (R115). -/
def execAluCdiv (dest a1 a2 : Int) (s : State) : Outcome := aluOp cdivLane dest a1 a2 s

/-- ALU `^` (R116). -/
def execAluXor (dest a1 a2 : Int) (s : State) : Outcome := aluOp xorLane dest a1 a2 s

/-- ALU `&` (R117). -/
def execAluAnd (dest a1 a2 : Int) (s : State) : Outcome := aluOp andLane dest a1 a2 s

/-- ALU `|` (R118). -/
def execAluOr (dest a1 a2 : Int) (s : State) : Outcome := aluOp orLane dest a1 a2 s

/-- ALU `<<` (R119). -/
def execAluShl (dest a1 a2 : Int) (s : State) : Outcome := aluOp shlLane dest a1 a2 s

/-- ALU `>>` (R120). -/
def execAluShr (dest a1 a2 : Int) (s : State) : Outcome := aluOp shrLane dest a1 a2 s

/-- ALU `%` (R121). -/
def execAluMod (dest a1 a2 : Int) (s : State) : Outcome := aluOp modLane dest a1 a2 s

/-- ALU `<` (R122). -/
def execAluLt (dest a1 a2 : Int) (s : State) : Outcome := aluOp ltLane dest a1 a2 s

/-- ALU `==` (R123). -/
def execAluEq (dest a1 a2 : Int) (s : State) : Outcome := aluOp eqLane dest a1 a2 s

end Sys2Proof.Machine
end

