-- ==== Sys2Proof/Machine/Debug.lean ====
section
/-! DEFINITION. The 2 operations of the Debug engine (45_debug.md). With `ENABLE_DEBUG` false a Debug slot is skipped and
cannot fault (R195); its operands are still checked for well-formedness (R198). -/

namespace Sys2Proof.Machine

/-- Debug `compare` (R196). -/
def execCompare (loc : Int) (key : Key) (s : State) : Outcome :=
  checked [loc] [] s (if s.params.enableDebug then compareOp [(loc, key)] s else .next s)

/-- The cells of a vector with the keys they are compared with, lane by lane. -/
def lanePairs (loc : Int) (keys : List Key) : List (Int × Key) :=
  keys.zipIdx.map (fun p => (loc + (p.2 : Int), p.1))

/-- Debug `vcompare`; a list of keys that has not 8 elements is ill-formed (R197). DESIGN CHOICE (log entry 12): that `exec` of
one such slot faults. -/
def execVcompare (loc : Int) (keys : List Key) (s : State) : Outcome :=
  if keys.length = vlen then
    checked [] [loc] s (if s.params.enableDebug then compareOp (lanePairs loc keys) s else .next s)
  else .fault (.illFormedBundle s.pc .operandType)

end Sys2Proof.Machine
end

