-- ==== Sys2Proof/Machine/Flow.lean ====
section
/-! DEFINITION. The 11 operations of the Flow engine (44_flow.md). Their effects land at the end of the cycle with the writes
of all other engines (R173). -/

namespace Sys2Proof.Machine

/-- Flow `select` (R174). -/
def execSelect (dest cond a b : Int) (s : State) : Outcome :=
  checked [dest, cond, a, b] [] s (.next (s.pend dest (if isTrue (s.x cond) then s.x a else s.x b)))

/-- Flow `vselect`: lane `i` is chosen by lane `i` of `cond` (R175). -/
def execVselect (dest cond a b : Int) (s : State) : Outcome :=
  checked [] [dest, cond, a, b] s
    (.next (s.pendVector dest (fun i => if isTrue (s.x (cond + i)) then s.x (a + i) else s.x (b + i))))

/-- Flow `add_imm` (R176). -/
def execAddImm (dest a imm : Int) (s : State) : Outcome :=
  checked [dest, a] [] s (.next (s.pend dest (Word.ofIntMod ((s.x a).toNat + imm))))

/-- Flow `halt` (R177). -/
def execHalt (s : State) : Outcome := .next (s.pendRunState .stopped)

/-- Flow `pause` (R178). -/
def execPause (s : State) : Outcome := .next (s.pendRunState .paused)

/-- Flow `trace_write`: the operand is a scratch address (R179). -/
def execTraceWrite (val : Int) (s : State) : Outcome :=
  checked [val] [] s (.next (s.pendTrace (s.x val)))

/-- Flow `cond_jump` (R180). -/
def execCondJump (cond addr : Int) (s : State) : Outcome := condJumpOp cond addr s

/-- Flow `cond_jump_rel`: the target is `pc + REL_BASE + offset` (R181). -/
def execCondJumpRel (cond offset : Int) (s : State) : Outcome :=
  condJumpOp cond (s.pc + s.params.relBase.toInt + offset) s

/-- Flow `jump` (R182). -/
def execJump (addr : Int) (s : State) : Outcome := .next (s.pendPc addr)

/-- Flow `jump_indirect`: the word in the cell, as a bundle index (R183). -/
def execJumpIndirect (addr : Int) (s : State) : Outcome :=
  checked [addr] [] s (.next (s.pendPc ((s.x addr).toNat : Int)))

/-- Flow `coreid` (R184). -/
def execCoreid (dest : Int) (s : State) : Outcome :=
  checked [dest] [] s (.next (s.pend dest s.params.coreId))

end Sys2Proof.Machine
end

