-- ==== Sys2Proof/Machine/Load.lean ====
section
/-! DEFINITION. The 4 operations of the Load engine (42_load.md). The memory address is the content of a scratch cell. -/

namespace Sys2Proof.Machine

/-- Load `load` (R156). -/
def execLoad (dest addr : Int) (s : State) : Outcome := loadOp dest addr s

/-- Load `load_offset`: the offset is added to both scratch addresses, not to the memory address (R157). -/
def execLoadOffset (dest addr offset : Int) (s : State) : Outcome := loadOp (dest + offset) (addr + offset) s

/-- Load `vload`: word `base + i`, not wrapped, to lane `i`; any address outside memory faults the whole slot (R158). -/
def execVload (dest addr : Int) (s : State) : Outcome :=
  checked [addr] [dest] s
    (inMemory .load (s.x addr).toNat vlen s
      (.next (s.pendVector dest (fun i => s.memAt ((s.x addr).toNat + i)))))

/-- Load `const`: the immediate reduced modulo 2^32 (R159). -/
def execConst (dest val : Int) (s : State) : Outcome :=
  checked [dest] [] s (.next (s.pend dest (Word.ofIntMod val)))

end Sys2Proof.Machine
end

