-- ==== Sys2Proof/Machine/Store.lean ====
section
/-! DEFINITION. The 2 operations of the Store engine (43_store.md). The address operand comes first. -/

namespace Sys2Proof.Machine

/-- Store `store` (R166). -/
def execStore (addr src : Int) (s : State) : Outcome :=
  checked [addr, src] [] s
    (inMemory .store (s.x addr).toNat 1 s (.next (s.pendMem (s.x addr).toNat (s.x src))))

/-- Store `vstore`: lane `i` to word `base + i`, not wrapped; any address outside memory faults the whole slot (R167). -/
def execVstore (addr src : Int) (s : State) : Outcome :=
  checked [addr] [src] s
    (inMemory .store (s.x addr).toNat vlen s
      (.next (s.pendMemVector (s.x addr).toNat (fun i => s.x (src + i)))))

end Sys2Proof.Machine
end

