-- ==== Sys2Proof/Machine/Valu.lean ====
section
/-! DEFINITION. The 15 operations of the VALU engine (41_valu.md), on vectors of 8 consecutive cells. -/

namespace Sys2Proof.Machine

/-- VALU `+` (R131). -/
def execValuAdd (dest a1 a2 : Int) (s : State) : Outcome := valuOp addLane dest a1 a2 s

/-- VALU `-` (R132). -/
def execValuSub (dest a1 a2 : Int) (s : State) : Outcome := valuOp subLane dest a1 a2 s

/-- VALU `*` (R133). -/
def execValuMul (dest a1 a2 : Int) (s : State) : Outcome := valuOp mulLane dest a1 a2 s

/-- VALU `//` (R134). -/
def execValuDiv (dest a1 a2 : Int) (s : State) : Outcome := valuOp divLane dest a1 a2 s

/-- VALU `cdiv` (R135). -/
def execValuCdiv (dest a1 a2 : Int) (s : State) : Outcome := valuOp cdivLane dest a1 a2 s

/-- VALU `^` (R136). -/
def execValuXor (dest a1 a2 : Int) (s : State) : Outcome := valuOp xorLane dest a1 a2 s

/-- VALU `&` (R137). -/
def execValuAnd (dest a1 a2 : Int) (s : State) : Outcome := valuOp andLane dest a1 a2 s

/-- VALU `|` (R138). -/
def execValuOr (dest a1 a2 : Int) (s : State) : Outcome := valuOp orLane dest a1 a2 s

/-- VALU `<<` (R139). -/
def execValuShl (dest a1 a2 : Int) (s : State) : Outcome := valuOp shlLane dest a1 a2 s

/-- VALU `>>` (R140). -/
def execValuShr (dest a1 a2 : Int) (s : State) : Outcome := valuOp shrLane dest a1 a2 s

/-- VALU `%` (R141). -/
def execValuMod (dest a1 a2 : Int) (s : State) : Outcome := valuOp modLane dest a1 a2 s

/-- VALU `<` (R142). -/
def execValuLt (dest a1 a2 : Int) (s : State) : Outcome := valuOp ltLane dest a1 a2 s

/-- VALU `==` (R143). -/
def execValuEq (dest a1 a2 : Int) (s : State) : Outcome := valuOp eqLane dest a1 a2 s

/-- VALU `vbroadcast`: the word of the one cell `src` to all 8 lanes, `src` inside `dest` included (R144). -/
def execVbroadcast (dest src : Int) (s : State) : Outcome :=
  checked [src] [dest] s (.next (s.pendVector dest (fun _ => s.x src)))

/-- VALU `multiply_add` (R145). -/
def execMultiplyAdd (dest a b c : Int) (s : State) : Outcome :=
  checked [] [dest, a, b, c] s
    (.next (s.pendVector dest (fun i => mulAddLane (s.x (a + i)) (s.x (b + i)) (s.x (c + i)))))

end Sys2Proof.Machine
end

