-- ==== Sys2Proof/Machine/Dispatch.lean ====
section
/-! DEFINITION. The meaning of every operation: one slot, evaluated inside a bundle step (20_memory.md R56). -/

namespace Sys2Proof.Machine

def exec (i : Instr) (s : State) : Host.Outcome State Fault Refusal :=
  match i with
  | .aluAdd dest a1 a2 => Sys2Proof.Machine.execAluAdd dest a1 a2 s
  | .aluSub dest a1 a2 => Sys2Proof.Machine.execAluSub dest a1 a2 s
  | .aluMul dest a1 a2 => Sys2Proof.Machine.execAluMul dest a1 a2 s
  | .aluDiv dest a1 a2 => Sys2Proof.Machine.execAluDiv dest a1 a2 s
  | .aluCdiv dest a1 a2 => Sys2Proof.Machine.execAluCdiv dest a1 a2 s
  | .aluXor dest a1 a2 => Sys2Proof.Machine.execAluXor dest a1 a2 s
  | .aluAnd dest a1 a2 => Sys2Proof.Machine.execAluAnd dest a1 a2 s
  | .aluOr dest a1 a2 => Sys2Proof.Machine.execAluOr dest a1 a2 s
  | .aluShl dest a1 a2 => Sys2Proof.Machine.execAluShl dest a1 a2 s
  | .aluShr dest a1 a2 => Sys2Proof.Machine.execAluShr dest a1 a2 s
  | .aluMod dest a1 a2 => Sys2Proof.Machine.execAluMod dest a1 a2 s
  | .aluLt dest a1 a2 => Sys2Proof.Machine.execAluLt dest a1 a2 s
  | .aluEq dest a1 a2 => Sys2Proof.Machine.execAluEq dest a1 a2 s
  | .valuAdd dest a1 a2 => Sys2Proof.Machine.execValuAdd dest a1 a2 s
  | .valuSub dest a1 a2 => Sys2Proof.Machine.execValuSub dest a1 a2 s
  | .valuMul dest a1 a2 => Sys2Proof.Machine.execValuMul dest a1 a2 s
  | .valuDiv dest a1 a2 => Sys2Proof.Machine.execValuDiv dest a1 a2 s
  | .valuCdiv dest a1 a2 => Sys2Proof.Machine.execValuCdiv dest a1 a2 s
  | .valuXor dest a1 a2 => Sys2Proof.Machine.execValuXor dest a1 a2 s
  | .valuAnd dest a1 a2 => Sys2Proof.Machine.execValuAnd dest a1 a2 s
  | .valuOr dest a1 a2 => Sys2Proof.Machine.execValuOr dest a1 a2 s
  | .valuShl dest a1 a2 => Sys2Proof.Machine.execValuShl dest a1 a2 s
  | .valuShr dest a1 a2 => Sys2Proof.Machine.execValuShr dest a1 a2 s
  | .valuMod dest a1 a2 => Sys2Proof.Machine.execValuMod dest a1 a2 s
  | .valuLt dest a1 a2 => Sys2Proof.Machine.execValuLt dest a1 a2 s
  | .valuEq dest a1 a2 => Sys2Proof.Machine.execValuEq dest a1 a2 s
  | .vbroadcast dest src => Sys2Proof.Machine.execVbroadcast dest src s
  | .multiplyAdd dest a b c => Sys2Proof.Machine.execMultiplyAdd dest a b c s
  | .load dest addr => Sys2Proof.Machine.execLoad dest addr s
  | .loadOffset dest addr offset => Sys2Proof.Machine.execLoadOffset dest addr offset s
  | .vload dest addr => Sys2Proof.Machine.execVload dest addr s
  | .const dest val => Sys2Proof.Machine.execConst dest val s
  | .store addr src => Sys2Proof.Machine.execStore addr src s
  | .vstore addr src => Sys2Proof.Machine.execVstore addr src s
  | .select dest cond a b => Sys2Proof.Machine.execSelect dest cond a b s
  | .vselect dest cond a b => Sys2Proof.Machine.execVselect dest cond a b s
  | .addImm dest a imm => Sys2Proof.Machine.execAddImm dest a imm s
  | .halt => Sys2Proof.Machine.execHalt s
  | .pause => Sys2Proof.Machine.execPause s
  | .traceWrite val => Sys2Proof.Machine.execTraceWrite val s
  | .condJump cond addr => Sys2Proof.Machine.execCondJump cond addr s
  | .condJumpRel cond offset => Sys2Proof.Machine.execCondJumpRel cond offset s
  | .jump addr => Sys2Proof.Machine.execJump addr s
  | .jumpIndirect addr => Sys2Proof.Machine.execJumpIndirect addr s
  | .coreid dest => Sys2Proof.Machine.execCoreid dest s
  | .compare loc key => Sys2Proof.Machine.execCompare loc key s
  | .vcompare loc keys => Sys2Proof.Machine.execVcompare loc keys s

end Sys2Proof.Machine
end

