-- ==== Sys2Proof/Machine/Bundle.lean ====
section
/-! DEFINITION. The bundle step (20_memory.md R56), the fetch, and the host's `run()` (60_exceptions.md R215). -/

namespace Sys2Proof.Machine

/-- The slots of one engine, each with its place in the engine's list. -/
def engineSlots (b : Bundle) (e : Engine) : List (Instr × Nat) := (b.slots e).zipIdx

/-- The slots of a bundle in the order they are evaluated: the engines alu, valu, load, store, flow, then debug, each in
the order of its list (R56). -/
def schedule (b : Bundle) : List (Instr × Nat) := Engine.order.flatMap (engineSlots b)

/-- The slots evaluated one after the other; each reads the start-of-cycle state and adds its pending effects. The first
fault ends the evaluation (R56, 60_exceptions.md R207). -/
def runSlots : List (Instr × Nat) → State → Outcome
  | [], s => .next s
  | (i, n) :: rest, s =>
    match exec i (s.atSlot n) with
    | .next t => runSlots rest t
    | .fault r => .fault r
    | .refused r => .refused r

/-- One bundle: all its slots, then the commit; or, where a slot faults, the fault and nothing else (R56, R208). -/
def runBundle (b : Bundle) (s : State) : Outcome :=
  match runSlots (schedule b) s.beginCycle with
  | .next t => .next (t.commit b.counts)
  | .fault r => .next (s.takeFault r)
  | .refused r => .refused r

/-- A fetch at or beyond the end of the program: a fault, or with `END_OF_PROGRAM = stop` the run state `STOPPED`, nothing
executed and no cycle counted (60_exceptions.md R206, R215). -/
def pastEnd (s : State) : State :=
  match s.params.endOfProgram with
  | .fault => s.takeFault (.fetchOutOfRange s.pc)
  | .stop => { s with pending := Pending.empty, runState := .stopped, inRun := false }

/-- The literal the `pc` names, if the program has that index; a negative `pc` names none (10_state.md R26). -/
def fetch (s : State) : Option Py :=
  if s.pc < 0 then none else s.params.program[s.pc.toNat]?

/-- One turn of the loop of `run()` with the core `RUNNING` (R215): the fetch check, the check of the bundle's form, the
bundle. -/
def runningStep (s : State) : Outcome :=
  match fetch s with
  | none => if s.pc < 0 then .next (s.takeFault (.fetchOutOfRange s.pc)) else .next (pastEnd s)
  | some lit =>
    match decodeBundle lit with
    | .error c => .next (s.takeFault (.illFormedBundle s.pc c))
    | .ok b => runBundle b s

/-- The beginning of the host's `run()` on a machine without a fault (R215, R216): a stopped core returns at once, a
paused core resumes. -/
def enterRun (s : State) : State :=
  match s.runState with
  | .stopped => s
  | .running => { s with inRun := true }
  | .paused => { s with runState := .running, inRun := true }

/-- While the core is not executing, the host makes its next `run()` call, if it makes one (R219); it writes nothing else
(R218). -/
def hostTurn (s : State) : State :=
  match s.runCalls with
  | 0 => s
  | n + 1 => { enterRun s with runCalls := n }

/-- One step of the machine and its host. A faulted machine has no step (R205). -/
def machineStep (s : State) : Outcome :=
  match s.fault with
  | some r => .fault r
  | none =>
    if s.inRun then
      match s.runState with
      | .running => runningStep s
      | .paused => .next { s with inRun := false }
      | .stopped => .next { s with inRun := false }
    else .next (hostTurn s)

/-- A program with one of its bundles replaced, filled up with empty bundles where it is too short. -/
def placeBundle (program : List Py) (n : Nat) (p : Py) : List Py :=
  (program.take n ++ List.replicate (n - program.length) (.dict .nil)) ++ p :: program.drop (n + 1)

/-- The state about to fetch one given literal (log entry 8): it stands in the program at the `pc` (at 0 where the `pc` is
negative), the core is `RUNNING` without a fault, and the host is inside `run()`. -/
def withLiteral (s : State) (p : Py) : State :=
  { s with
    params := { s.params with program := placeBundle s.params.program s.pc.toNat p }
    pc := (s.pc.toNat : Int)
    runState := .running
    fault := none
    inRun := true }

end Sys2Proof.Machine
end

