-- ==== Sys2Proof/Machine/Step.lean ====
section
/-! DEFINITION. The step of the machine, and the state about to fetch a given instruction. -/

namespace Sys2Proof.Machine

/-- One step: a turn of the loop of `run()` while the host is inside it, else the host's turn (60_exceptions.md R215). -/
def step (s : State) : Host.Outcome State Fault Refusal := Sys2Proof.Machine.machineStep s

/-- The state whose next step fetches and runs the instruction whose bits are `w` (log entry 8). -/
def State.withFetchWord (s : State) (nbits w : Nat) : State :=
  Sys2Proof.Machine.withLiteral s (Sys2Proof.literalOfBits nbits w)

end Sys2Proof.Machine
end

