-- ==== Sys2Proof/Machine/Launch.lean ====
section
/-! DEFINITION. The launch (70_reset_and_hazards.md R235) and what the host may observe (60_exceptions.md R217). -/

namespace Sys2Proof.Machine

/-- The content of memory given as the list of its words, address 0 first (00_scope.md R7, `MEM_IMAGE`). -/
def imageFrom : Nat → List Word → Mem
  | _, [] => []
  | n, w :: ws => if w = Mem.unlisted then imageFrom (n + 1) ws else (n, w) :: imageFrom (n + 1) ws

/-- `MEM_IMAGE` in the form the state holds it. -/
def imageOf (ws : List Word) : Mem := imageFrom 0 ws

/-- A launch: the program is checked for well-formedness and refused as a whole where a bundle fails a check, naming the
bundle and the check (30_encoding.md R90); the image must fit `MEM_SIZE`; else the state of 10_state.md R38. DESIGN CHOICE
(log entry 12): of several ill-formed bundles the one of the lowest index is named, and a program that is ill-formed beside
an image that does not fit is refused as ill-formed; R90 and R235 say neither. -/
def launch (p : Params) (image : Mem) (runCalls : Nat) : Except Refusal State :=
  match firstIllFormed 0 p.program with
  | some (n, c) => .error (.illFormedProgram n c)
  | none =>
    if Mem.wf image ∧ Mem.within image p.memSize then .ok (State.ofLaunch p image runCalls)
    else .error .imageDoesNotFit

/-- What the host reads (R217). -/
structure HostView where
  mem      : Mem
  cycle    : Nat
  traceBuf : List Word
  runState : RunState
  fault    : Option Fault
  scratch  : Vector Word scratchSize
  pc       : Int
deriving DecidableEq, Repr

/-- The host reads whenever it is not inside `run()` (R217). -/
def hostView (s : State) : Option HostView :=
  if s.inRun then none else some ⟨s.mem, s.cycle, s.traceBuf, s.runState, s.fault, s.scratch, s.pc⟩

end Sys2Proof.Machine
end

