-- ==== Sys2Proof/Safety.lean ====
section
/-! DEFINITION. The terms in which statements speak of the machine: legal operands, when a core executes, what a slot names
before any state is known (10_state.md R23), what a bundle's slots do taken one by one, the invariant of the state, and
the ends of a run (60_exceptions.md R219). -/

namespace Sys2Proof

/-- A scratch address (30_encoding.md R85, S-read and S-write). -/
abbrev IsCell (a : Int) : Prop := 0 ≤ a ∧ a ≤ 1535

/-- The base of a vector (R85, V-read and V-write). -/
abbrev IsBase (a : Int) : Prop := 0 ≤ a ∧ a ≤ 1528

/-- A text between braces, as a bundle is written (30_encoding.md R93). -/
def inBraces (t : Text) : Text := 123 :: (t ++ [125])

/-- A slot's tuple: the operation's name and its fields (30_encoding.md R82). -/
def slotTuple (name : String) (fields : List Py) : Py := .tup (Pys.ofList (.str (ascii name) :: fields))

/-- Under an engine's key the tuple of a name and integer fields is the operation `i`. -/
abbrev ReadsAs (e : Engine) (name : String) (fields : List Int) (i : Instr) : Prop :=
  decodeSlot e (slotTuple name (fields.map .int)) = .ok i

/-- The 8 cells of a vector (10_state.md R34). -/
def vectorCells (b : Int) : List Int := (List.range vlen).map (fun i : Nat => b + (i : Int))

/-- The scratch cells an operation writes, known from the slot alone (R23). -/
def Instr.writtenCells : Instr → List Int
  | .aluAdd d _ _ | .aluSub d _ _ | .aluMul d _ _ | .aluDiv d _ _ | .aluCdiv d _ _ | .aluXor d _ _ | .aluAnd d _ _
  | .aluOr d _ _ | .aluShl d _ _ | .aluShr d _ _ | .aluMod d _ _ | .aluLt d _ _ | .aluEq d _ _ => [d]
  | .valuAdd d _ _ | .valuSub d _ _ | .valuMul d _ _ | .valuDiv d _ _ | .valuCdiv d _ _ | .valuXor d _ _
  | .valuAnd d _ _ | .valuOr d _ _ | .valuShl d _ _ | .valuShr d _ _ | .valuMod d _ _ | .valuLt d _ _
  | .valuEq d _ _ | .vbroadcast d _ | .multiplyAdd d _ _ _ => vectorCells d
  | .load d _ => [d]
  | .loadOffset d _ offset => [d + offset]
  | .vload d _ => vectorCells d
  | .const d _ => [d]
  | .store _ _ | .vstore _ _ => []
  | .select d _ _ _ => [d]
  | .vselect d _ _ _ => vectorCells d
  | .addImm d _ _ => [d]
  | .halt | .pause | .traceWrite _ | .condJump _ _ | .condJumpRel _ _ | .jump _ | .jumpIndirect _ => []
  | .coreid d => [d]
  | .compare _ _ | .vcompare _ _ => []

/-- The scratch cells an operation reads, known from the slot alone (R23). -/
def Instr.readCells : Instr → List Int
  | .aluAdd _ a b | .aluSub _ a b | .aluMul _ a b | .aluDiv _ a b | .aluCdiv _ a b | .aluXor _ a b | .aluAnd _ a b
  | .aluOr _ a b | .aluShl _ a b | .aluShr _ a b | .aluMod _ a b | .aluLt _ a b | .aluEq _ a b => [a, b]
  | .valuAdd _ a b | .valuSub _ a b | .valuMul _ a b | .valuDiv _ a b | .valuCdiv _ a b | .valuXor _ a b
  | .valuAnd _ a b | .valuOr _ a b | .valuShl _ a b | .valuShr _ a b | .valuMod _ a b | .valuLt _ a b
  | .valuEq _ a b => vectorCells a ++ vectorCells b
  | .vbroadcast _ src => [src]
  | .multiplyAdd _ a b c => vectorCells a ++ vectorCells b ++ vectorCells c
  | .load _ addr => [addr]
  | .loadOffset _ addr offset => [addr + offset]
  | .vload _ addr => [addr]
  | .const _ _ => []
  | .store addr src => [addr, src]
  | .vstore addr src => addr :: vectorCells src
  | .select _ c a b => [c, a, b]
  | .vselect _ c a b => vectorCells c ++ vectorCells a ++ vectorCells b
  | .addImm _ a _ => [a]
  | .halt | .pause => []
  | .traceWrite val => [val]
  | .condJump cond _ | .condJumpRel cond _ => [cond]
  | .jump _ => []
  | .jumpIndirect addr => [addr]
  | .coreid _ => []
  | .compare loc _ => [loc]
  | .vcompare loc _ => vectorCells loc

/-- The four operations that may perform `pc <- target` (R25). -/
def Instr.isJump : Instr → Bool
  | .condJump _ _ | .condJumpRel _ _ | .jump _ | .jumpIndirect _ => true
  | _ => false

/-- The two operations that set the run state (R28). -/
def Instr.isStop : Instr → Bool
  | .halt | .pause => true
  | _ => false

/-- The operation that appends to the trace buffer (R39). -/
def Instr.isTraceWrite : Instr → Bool
  | .traceWrite _ => true
  | _ => false

/-- The scratch cells a bundle writes (R23). -/
def Bundle.writtenCells (b : Bundle) : List Int := b.allSlots.flatMap Instr.writtenCells

namespace Machine

/-- The memory addresses a slot stores to in a state (20_memory.md R54): for `store` the word in cell `addr`, for
`vstore` that address and the 7 after it, and none for every other operation. -/
def storedAddresses (i : Instr) (s : State) : List Nat :=
  match i with
  | .store addr _ => [(s.x addr).toNat]
  | .vstore addr _ => (List.range vlen).map (fun k => (s.x addr).toNat + k)
  | _ => []

/-- The memory addresses a bundle stores to in a state: those of its slots, at the start of the cycle. -/
def bundleStores (b : Bundle) (s : State) : List Nat := b.allSlots.flatMap (fun i => storedAddresses i s)

/-- The core executes: the condition under which a bundle step exists (20_memory.md R56), but for the fetch. -/
structure Ready (s : State) : Prop where
  noFault : s.fault = none
  inRun : s.inRun = true
  running : s.runState = .running

/-- The `pc` names a literal of the program that decodes to the bundle `b`. -/
def Fetches (s : State) (b : Bundle) : Prop := ∃ lit, fetch s = some lit ∧ decodeBundle lit = .ok b

/-- What a slot leaves pending when it is evaluated alone, at the start of the cycle. -/
def slotEffect (i : Instr) (s : State) : Pending :=
  match exec i s.beginCycle with
  | .next t => t.pending
  | .fault _ => Pending.empty
  | .refused _ => Pending.empty

/-- The scratch writes of a bundle's slots, each slot taken alone at the start of the cycle, in the processing order. -/
def bundleScratchWrites (b : Bundle) (s : State) : List (Nat × Word) :=
  b.allSlots.flatMap (fun i => (slotEffect i s).scratch)

/-- The memory writes of a bundle's slots, taken in the same way. -/
def bundleMemWrites (b : Bundle) (s : State) : List (Nat × Word) :=
  b.allSlots.flatMap (fun i => (slotEffect i s).mem)

/-- The words a bundle's slots append to the trace buffer, taken in the same way. -/
def bundleTrace (b : Bundle) (s : State) : List Word :=
  b.allSlots.flatMap (fun i => (slotEffect i s).trace)

/-- The value of the last write to a place in an ordered list of writes (20_memory.md R58). -/
def lastWrite (ws : List (Nat × Word)) (a : Nat) : Option Word :=
  ((ws.filter (fun w => w.1 == a)).getLast?).map Prod.snd

/-- The invariant of the state at a cycle boundary: memory is in canonical form and lists only addresses that exist (20_memory.md
R53), nothing is pending (10_state.md R36), and while the host is inside `run()` the core is running without a fault
(60_exceptions.md R215). -/
structure Inv (s : State) : Prop where
  memWf : Mem.wf s.mem
  memWithin : Mem.within s.mem s.params.memSize
  nothingPending : s.pending = Pending.empty
  inRunMeansRunning : s.inRun = true → s.runState = .running ∧ s.fault = none

/-- A run that has ended well (60_exceptions.md R219). -/
def EndedWell (s : State) : Prop := s.runState = .stopped ∧ s.fault = none

/-- A yield point: the host may inspect the machine and may or may not call `run()` again (R219). -/
def YieldPoint (s : State) : Prop := s.runState = .paused ∧ s.fault = none

end Machine

end Sys2Proof
end

