-- ==== Sys2Proof/Certificates/Slice0/Obligations.lean ====
section
/-! DEFINITION. The statements for the provers. Each docstring names the rule of the spec it comes from. In every statement
the state is arbitrary unless a hypothesis says otherwise, and with it every launch parameter of 00_scope.md R7. -/

open Sys2Proof Sys2Proof.Machine

/-! ## Encoding (30_encoding.md) -/

/-- The tuple of every well-formed operation, under its engine's key, decodes to that operation with every operand (R82,
R84, R88; what is well-formed, VALU `cdiv` and immediates of any size are the spec's own decisions D5, D17, D28 and D26). -/
def Obligations.DecodeOfEncodedSlot : Prop :=
  ∀ i : Instr, i.wellFormed = true → decodeSlot i.engine (encodeSlot i) = .ok i

/-- A literal that decodes to an operation is the tuple of that operation: no other tuple means it (R84, R88). That the
operation is well-formed rests on the spec's own decisions D5 (a scratch address out of range is ill-formed) and D17 (an
ill-formed program is refused) in R85 and R90; log entries 12 and 18. -/
def Obligations.SlotHasOneLiteral : Prop :=
  ∀ (e : Engine) (p : Py) (i : Instr), decodeSlot e p = .ok i → p = encodeSlot i ∧ i.engine = e ∧ i.wellFormed = true

/-- Each operation of the map, under its engine's key and with the fields of its format in their order, for every value the
format admits: the tuples of R84 with the names of R88, which alone says the operations of the formats A3 and V3. That
`cdiv` is an operation of the VALU is the spec's own decision D28, that immediates are integers of any size D26, and the
bounds of scratch addresses are D5 (log entry 18). -/
def Obligations.TuplesOfTheOperationMap : Prop :=
  (∀ d a b : Int, IsCell d → IsCell a → IsCell b →
    ReadsAs .alu "+" [d, a, b] (.aluAdd d a b) ∧
    ReadsAs .alu "-" [d, a, b] (.aluSub d a b) ∧
    ReadsAs .alu "*" [d, a, b] (.aluMul d a b) ∧
    ReadsAs .alu "//" [d, a, b] (.aluDiv d a b) ∧
    ReadsAs .alu "cdiv" [d, a, b] (.aluCdiv d a b) ∧
    ReadsAs .alu "^" [d, a, b] (.aluXor d a b) ∧
    ReadsAs .alu "&" [d, a, b] (.aluAnd d a b) ∧
    ReadsAs .alu "|" [d, a, b] (.aluOr d a b) ∧
    ReadsAs .alu "<<" [d, a, b] (.aluShl d a b) ∧
    ReadsAs .alu ">>" [d, a, b] (.aluShr d a b) ∧
    ReadsAs .alu "%" [d, a, b] (.aluMod d a b) ∧
    ReadsAs .alu "<" [d, a, b] (.aluLt d a b) ∧
    ReadsAs .alu "==" [d, a, b] (.aluEq d a b)) ∧
  (∀ d a b : Int, IsBase d → IsBase a → IsBase b →
    ReadsAs .valu "+" [d, a, b] (.valuAdd d a b) ∧
    ReadsAs .valu "-" [d, a, b] (.valuSub d a b) ∧
    ReadsAs .valu "*" [d, a, b] (.valuMul d a b) ∧
    ReadsAs .valu "//" [d, a, b] (.valuDiv d a b) ∧
    ReadsAs .valu "cdiv" [d, a, b] (.valuCdiv d a b) ∧
    ReadsAs .valu "^" [d, a, b] (.valuXor d a b) ∧
    ReadsAs .valu "&" [d, a, b] (.valuAnd d a b) ∧
    ReadsAs .valu "|" [d, a, b] (.valuOr d a b) ∧
    ReadsAs .valu "<<" [d, a, b] (.valuShl d a b) ∧
    ReadsAs .valu ">>" [d, a, b] (.valuShr d a b) ∧
    ReadsAs .valu "%" [d, a, b] (.valuMod d a b) ∧
    ReadsAs .valu "<" [d, a, b] (.valuLt d a b) ∧
    ReadsAs .valu "==" [d, a, b] (.valuEq d a b)) ∧
  (∀ d src : Int, IsBase d → IsCell src → ReadsAs .valu "vbroadcast" [d, src] (.vbroadcast d src)) ∧
  (∀ d a b c : Int, IsBase d → IsBase a → IsBase b → IsBase c →
    ReadsAs .valu "multiply_add" [d, a, b, c] (.multiplyAdd d a b c) ∧
    ReadsAs .flow "vselect" [d, a, b, c] (.vselect d a b c)) ∧
  (∀ d a o : Int, IsCell (d + o) → IsCell (a + o) → ReadsAs .load "load_offset" [d, a, o] (.loadOffset d a o)) ∧
  (∀ d a b c : Int, IsCell d → IsCell a → IsCell b → IsCell c → ReadsAs .flow "select" [d, a, b, c] (.select d a b c)) ∧
  (∀ d a : Int, IsBase d → IsCell a → ReadsAs .load "vload" [d, a] (.vload d a) ∧
    ReadsAs .store "vstore" [a, d] (.vstore a d)) ∧
  (∀ d a n : Int, IsCell d → IsCell a →
    ReadsAs .load "load" [d, a] (.load d a) ∧
    ReadsAs .load "const" [d, n] (.const d n) ∧
    ReadsAs .store "store" [d, a] (.store d a) ∧
    ReadsAs .flow "add_imm" [d, a, n] (.addImm d a n) ∧
    ReadsAs .flow "halt" [] .halt ∧
    ReadsAs .flow "pause" [] .pause ∧
    ReadsAs .flow "trace_write" [a] (.traceWrite a) ∧
    ReadsAs .flow "cond_jump" [a, n] (.condJump a n) ∧
    ReadsAs .flow "cond_jump_rel" [a, n] (.condJumpRel a n) ∧
    ReadsAs .flow "jump" [n] (.jump n) ∧
    ReadsAs .flow "jump_indirect" [a] (.jumpIndirect a) ∧
    ReadsAs .flow "coreid" [d] (.coreid d)) ∧
  (∀ (l : Int) (k : Key), IsCell l → decodeSlot .debug (slotTuple "compare" [.int l, k]) = .ok (.compare l k)) ∧
  (∀ (l : Int) (ks : List Key), IsBase l → ks.length = 8 →
    decodeSlot .debug (slotTuple "vcompare" [.int l, .list (Pys.ofList ks)]) = .ok (.vcompare l ks))

/-- The dictionary of every well-formed bundle decodes to that bundle, keys with empty lists included (R80, R81; what is
well-formed is R90 and the spec's own decisions D5 and D17). -/
def Obligations.DecodeOfEncodedBundle : Prop :=
  ∀ b : Bundle, b.wellFormed = true → decodeBundle (encodeBundle b) = .ok b

/-- A bundle is well-formed exactly when every engine has at most its slot limit of slots, each an operation of that
engine, with 8 keys where it is `vcompare`, and with its cells in `0 .. 1535` and its vector bases in `0 .. 1528`
(R85, R90; the spec's own decisions D5 and D17); the slot limits are the six numbers of R83; and the decoder answers with
such bundles only. -/
def Obligations.DecodedBundlesMeetEveryCheck : Prop :=
  (slotLimit .alu = 12 ∧ slotLimit .valu = 6 ∧ slotLimit .load = 2 ∧ slotLimit .store = 2 ∧ slotLimit .flow = 1 ∧
    slotLimit .debug = 64) ∧
  (∀ b : Bundle, b.wellFormed = true ↔
    ∀ e : Engine, (b.slots e).length ≤ slotLimit e ∧
      ∀ i ∈ b.slots e, i.engine = e ∧ (∀ loc keys, i = .vcompare loc keys → keys.length = 8) ∧
        (∀ a ∈ i.scalarFields, IsCell a) ∧ (∀ a ∈ i.vectorFields, IsBase a)) ∧
  (∀ (p : Py) (b : Bundle), decodeBundle p = .ok b → b.wellFormed = true)

/-- The order of the keys inside a bundle's dictionary has no meaning (R95, decision D29 of the spec). -/
def Obligations.KeyOrderHasNoMeaning : Prop :=
  ∀ (entries entries' : List (Py × Py)) (b : Bundle), entries.Perm entries' →
    decodeBundle (.dict (Kvs.ofList entries)) = .ok b → decodeBundle (.dict (Kvs.ofList entries')) = .ok b

/-- The text of every literal whose strings the format can write reads back as that literal (R93). The blanks of the text
and the characters a string may hold are the model's choice (log entry 9). -/
def Obligations.TextOfLiteralReadsBack : Prop :=
  ∀ p : Py, p.writable = true → parseText p.text = some p

/-- Bundles written out as the spec's examples write them decode to what they say (R80, R84; 95_test_vectors.md). -/
def Obligations.WrittenBundlesDecode : Prop :=
  decodeText (inBraces (ascii "\"alu\": [(\"+\", 10, 11, 0), (\"-\", 2, 2, 3)]")) =
    .ok { Bundle.empty with alu := some [.aluAdd 10 11 0, .aluSub 2 2 3] } ∧
  decodeText (inBraces (ascii "\"valu\": [(\"multiply_add\", 40, 16, 24, 32)]")) =
    .ok { Bundle.empty with valu := some [.multiplyAdd 40 16 24 32] } ∧
  decodeText (inBraces (ascii "\"store\": [(\"vstore\", 3, 40)], \"flow\": [(\"pause\",)]")) =
    .ok { Bundle.empty with store := some [.vstore 3 40], flow := some [.pause] } ∧
  decodeText (inBraces (ascii "\"load\": [(\"load_offset\", 8, 8, -8)], \"debug\": [(\"compare\", 12, \"k0\")]")) =
    .ok { Bundle.empty with load := some [.loadOffset 8 8 (-8)], debug := some [.compare 12 (.str (ascii "k0"))] }

/-! ## The ALU (40_alu.md) -/

/-- `+`, `-` and `*` are exact and reduced modulo 2^32, whatever cells the operands name (R111, R112, R113). -/
def Obligations.AluSumDifferenceProduct : Prop :=
  ∀ (s : State) (d a b : Int), IsCell d → IsCell a → IsCell b →
    (∃ v : Word, exec (.aluAdd d a b) s = .next (s.pend d v) ∧
      v.toNat = ((s.x a).toNat + (s.x b).toNat) % 2 ^ 32) ∧
    (∃ v : Word, exec (.aluSub d a b) s = .next (s.pend d v) ∧
      (v.toNat : Int) = (((s.x a).toNat : Int) - ((s.x b).toNat : Int)) % 2 ^ 32) ∧
    (∃ v : Word, exec (.aluMul d a b) s = .next (s.pend d v) ∧
      v.toNat = ((s.x a).toNat * (s.x b).toNat) % 2 ^ 32)

/-- `^`, `&` and `|` act bit by bit on the 32 bits (R116, R117, R118). -/
def Obligations.AluBitwise : Prop :=
  ∀ (s : State) (d a b : Int), IsCell d → IsCell a → IsCell b →
    (∃ v : Word, exec (.aluXor d a b) s = .next (s.pend d v) ∧
      ∀ k : Nat, k < 32 → v.getLsbD k = (((s.x a).getLsbD k).xor ((s.x b).getLsbD k))) ∧
    (∃ v : Word, exec (.aluAnd d a b) s = .next (s.pend d v) ∧
      ∀ k : Nat, k < 32 → v.getLsbD k = ((s.x a).getLsbD k && (s.x b).getLsbD k)) ∧
    (∃ v : Word, exec (.aluOr d a b) s = .next (s.pend d v) ∧
      ∀ k : Nat, k < 32 → v.getLsbD k = ((s.x a).getLsbD k || (s.x b).getLsbD k))

/-- Both shifts take the whole word as the count: the results are `(A * 2^B) mod 2^32` and `A div 2^B` for every `B`, so a
count of 32 or more gives 0 (R119, R120; decision D1 of the spec). -/
def Obligations.AluShiftsTakeTheWholeCount : Prop :=
  ∀ (s : State) (d a b : Int), IsCell d → IsCell a → IsCell b →
    (∃ v : Word, exec (.aluShl d a b) s = .next (s.pend d v) ∧
      v.toNat = ((s.x a).toNat * 2 ^ (s.x b).toNat) % 2 ^ 32) ∧
    (∃ v : Word, exec (.aluShr d a b) s = .next (s.pend d v) ∧
      v.toNat = (s.x a).toNat / 2 ^ (s.x b).toNat) ∧
    (32 ≤ (s.x b).toNat →
      exec (.aluShl d a b) s = .next (s.pend d 0) ∧ exec (.aluShr d a b) s = .next (s.pend d 0))

/-- `<` and `==` write 1 or 0, the comparison being of unsigned integers (R122, R123; the spec's
own decision D1). -/
def Obligations.AluComparisons : Prop :=
  ∀ (s : State) (d a b : Int), IsCell d → IsCell a → IsCell b →
    exec (.aluLt d a b) s = .next (s.pend d (if (s.x a).toNat < (s.x b).toNat then 1 else 0)) ∧
    exec (.aluEq d a b) s = .next (s.pend d (if (s.x a).toNat = (s.x b).toNat then 1 else 0))

/-- With a divisor other than 0, `//` writes the floor of the quotient, `cdiv` the least `q` with `q * B >= A`, and `%`
the remainder, so that quotient and remainder give back `A` (R114, R115, R121). That the words are divided as unsigned
integers is the spec's own decision D1 (log entry 17). -/
def Obligations.AluDivisions : Prop :=
  ∀ (s : State) (d a b : Int), IsCell d → IsCell a → IsCell b → s.x b ≠ 0 →
    ∃ q c r : Word,
      exec (.aluDiv d a b) s = .next (s.pend d q) ∧
      exec (.aluCdiv d a b) s = .next (s.pend d c) ∧
      exec (.aluMod d a b) s = .next (s.pend d r) ∧
      q.toNat * (s.x b).toNat + r.toNat = (s.x a).toNat ∧ r.toNat < (s.x b).toNat ∧
      (s.x a).toNat ≤ c.toNat * (s.x b).toNat ∧
      ∀ n : Nat, (s.x a).toNat ≤ n * (s.x b).toNat → c.toNat ≤ n

/-- With a divisor of 0 the three divisions of the ALU fault and name no lane. The spec's own decision D2 ("The spec decides
that each of the three ... raises the fault `DivideByZero` when its divisor is 0"). -/
def Obligations.AluDivisionByZeroFaults : Prop :=
  ∀ (s : State) (d a b : Int), IsCell d → IsCell a → IsCell b → s.x b = 0 →
    exec (.aluDiv d a b) s = .fault (.divideByZero s.pc .alu s.pending.slot none) ∧
    exec (.aluCdiv d a b) s = .fault (.divideByZero s.pc .alu s.pending.slot none) ∧
    exec (.aluMod d a b) s = .fault (.divideByZero s.pc .alu s.pending.slot none)

/-! ## The VALU (41_valu.md) -/

/-- The element-wise operations other than the shifts and the divisions: lane `i` of `dest` gets the value of lanes `i` of
the two sources, all read at the start of the cycle however the three vectors lie (R131 to R133, R136 to R138, R142,
R143; that `<` is unsigned is the spec's own decision D1, that the vectors may overlap D31). -/
def Obligations.ValuElementwise : Prop :=
  ∀ (s : State) (d a b : Int), IsBase d → IsBase a → IsBase b →
    (∃ v : Nat → Word, exec (.valuAdd d a b) s = .next (s.pendVector d v) ∧
      ∀ k : Nat, k < 8 → (v k).toNat = ((s.x (a + k)).toNat + (s.x (b + k)).toNat) % 2 ^ 32) ∧
    (∃ v : Nat → Word, exec (.valuSub d a b) s = .next (s.pendVector d v) ∧
      ∀ k : Nat, k < 8 → ((v k).toNat : Int) = (((s.x (a + k)).toNat : Int) - ((s.x (b + k)).toNat : Int)) % 2 ^ 32) ∧
    (∃ v : Nat → Word, exec (.valuMul d a b) s = .next (s.pendVector d v) ∧
      ∀ k : Nat, k < 8 → (v k).toNat = ((s.x (a + k)).toNat * (s.x (b + k)).toNat) % 2 ^ 32) ∧
    (∃ v : Nat → Word, exec (.valuXor d a b) s = .next (s.pendVector d v) ∧
      ∀ k : Nat, k < 8 → v k = s.x (a + k) ^^^ s.x (b + k)) ∧
    (∃ v : Nat → Word, exec (.valuAnd d a b) s = .next (s.pendVector d v) ∧
      ∀ k : Nat, k < 8 → v k = s.x (a + k) &&& s.x (b + k)) ∧
    (∃ v : Nat → Word, exec (.valuOr d a b) s = .next (s.pendVector d v) ∧
      ∀ k : Nat, k < 8 → v k = s.x (a + k) ||| s.x (b + k)) ∧
    (∃ v : Nat → Word, exec (.valuLt d a b) s = .next (s.pendVector d v) ∧
      ∀ k : Nat, k < 8 → v k = if (s.x (a + k)).toNat < (s.x (b + k)).toNat then 1 else 0) ∧
    (∃ v : Nat → Word, exec (.valuEq d a b) s = .next (s.pendVector d v) ∧
      ∀ k : Nat, k < 8 → v k = if (s.x (a + k)).toNat = (s.x (b + k)).toNat then 1 else 0)

/-- The shifts of the VALU, and its divisions where no lane has a divisor of 0: lane `k` gets what the ALU operation of the
same name writes for the cells of lane `k` (R130, R134, R135, R139 to R141; the spec's own decisions D1 on how the
operations are read, D2 on a divisor of 0, D28 on `cdiv` and D31 on vectors that overlap). -/
def Obligations.ValuShiftsAndDivisionsAreAluPerLane : Prop :=
  ∀ (s : State) (d a b : Int), IsBase d → IsBase a → IsBase b →
    (∃ v : Nat → Word, exec (.valuShl d a b) s = .next (s.pendVector d v) ∧
      ∀ k : Nat, k < 8 → exec (.aluShl (d + k) (a + k) (b + k)) s = .next (s.pend (d + k) (v k))) ∧
    (∃ v : Nat → Word, exec (.valuShr d a b) s = .next (s.pendVector d v) ∧
      ∀ k : Nat, k < 8 → exec (.aluShr (d + k) (a + k) (b + k)) s = .next (s.pend (d + k) (v k))) ∧
    ((∀ k : Nat, k < 8 → s.x (b + k) ≠ 0) →
      (∃ v : Nat → Word, exec (.valuDiv d a b) s = .next (s.pendVector d v) ∧
        ∀ k : Nat, k < 8 → exec (.aluDiv (d + k) (a + k) (b + k)) s = .next (s.pend (d + k) (v k))) ∧
      (∃ v : Nat → Word, exec (.valuCdiv d a b) s = .next (s.pendVector d v) ∧
        ∀ k : Nat, k < 8 → exec (.aluCdiv (d + k) (a + k) (b + k)) s = .next (s.pend (d + k) (v k))) ∧
      (∃ v : Nat → Word, exec (.valuMod d a b) s = .next (s.pendVector d v) ∧
        ∀ k : Nat, k < 8 → exec (.aluMod (d + k) (a + k) (b + k)) s = .next (s.pend (d + k) (v k))))

/-- A divisor of 0 in any lane faults the whole slot of a VALU division; the lane recorded is the first such (R130; the spec's
own decisions D2 and D19). -/
def Obligations.ValuDivisionByZeroFaults : Prop :=
  ∀ (s : State) (d a b : Int) (k : Nat), IsBase d → IsBase a → IsBase b → k < 8 → s.x (b + k) = 0 →
    (∀ j : Nat, j < k → s.x (b + j) ≠ 0) →
    exec (.valuDiv d a b) s = .fault (.divideByZero s.pc .valu s.pending.slot (some k)) ∧
    exec (.valuCdiv d a b) s = .fault (.divideByZero s.pc .valu s.pending.slot (some k)) ∧
    exec (.valuMod d a b) s = .fault (.divideByZero s.pc .valu s.pending.slot (some k))

/-- `vbroadcast` writes the one word of `src` to all 8 cells of `dest`, `src` among them or not (R144). -/
def Obligations.BroadcastFillsAllLanes : Prop :=
  ∀ (s : State) (d src : Int), IsBase d → IsCell src →
    ∃ t, exec (.vbroadcast d src) s = .next t ∧
      t = { s with pending := { s.pending with
        scratch := s.pending.scratch ++ (List.range 8).map (fun k => (d.toNat + k, s.x src)) } }

/-- `multiply_add`: product and sum are exact and reduced once, per lane (R145). -/
def Obligations.MultiplyAddPerLane : Prop :=
  ∀ (s : State) (d a b c : Int), IsBase d → IsBase a → IsBase b → IsBase c →
    ∃ v : Nat → Word, exec (.multiplyAdd d a b c) s = .next (s.pendVector d v) ∧
      ∀ k : Nat, k < 8 → (v k).toNat =
        ((s.x (a + k)).toNat * (s.x (b + k)).toNat + (s.x (c + k)).toNat) % 2 ^ 32

/-! ## Load and Store (42_load.md, 43_store.md) -/

/-- `load` reads the word at the memory address that cell `addr` holds, and `load_offset` is exactly the `load` of the two
sums (R156, R157), for an address that exists. -/
def Obligations.LoadsReadTheAddressedWord : Prop :=
  (∀ (s : State) (d a : Int), IsCell d → IsCell a → (s.x a).toNat < s.params.memSize →
    exec (.load d a) s = .next (s.pend d (s.memAt (s.x a).toNat))) ∧
  (∀ (s : State) (d a o : Int), IsCell (d + o) → IsCell (a + o) → (s.x (a + o)).toNat < s.params.memSize →
    exec (.loadOffset d a o) s = .next (s.pend (d + o) (s.memAt (s.x (a + o)).toNat))) ∧
  (∀ (s : State) (d a o : Int), exec (.loadOffset d a o) s = exec (.load (d + o) (a + o)) s)

/-- `vload` and `vstore` move the 8 words from the address in cell `addr` on, lowest address to lowest lane, without wrap
and at any base whose 8 addresses exist (R158, R167; no wrap is the spec's own decision D3, no alignment D22). -/
def Obligations.VectorTransfersMoveEightWords : Prop :=
  (∀ (s : State) (d a : Int), IsBase d → IsCell a → (s.x a).toNat + 7 < s.params.memSize →
    ∃ v : Nat → Word, exec (.vload d a) s = .next (s.pendVector d v) ∧
      ∀ k : Nat, k < 8 → v k = s.memAt ((s.x a).toNat + k)) ∧
  (∀ (s : State) (a src : Int), IsCell a → IsBase src → (s.x a).toNat + 7 < s.params.memSize →
    ∃ v : Nat → Word, exec (.vstore a src) s = .next (s.pendMemVector (s.x a).toNat v) ∧
      ∀ k : Nat, k < 8 → v k = s.x (src + k))

/-- `const` writes its immediate, of either sign and any size, modulo 2^32 (R159). -/
def Obligations.ConstIsReducedModTwoPow32 : Prop :=
  ∀ (s : State) (d val : Int), IsCell d →
    ∃ v : Word, exec (.const d val) s = .next (s.pend d v) ∧ (v.toNat : Int) = val % 2 ^ 32

/-- `store` writes the word of cell `src` to the memory address that cell `addr` holds, for an address that exists (R166). -/
def Obligations.StoreWritesTheAddressedWord : Prop :=
  ∀ (s : State) (a src : Int), IsCell a → IsCell src → (s.x a).toNat < s.params.memSize →
    exec (.store a src) s = .next (s.pendMem (s.x a).toNat (s.x src))

/-- An access with an address outside memory faults as a whole, and the address recorded is the first such; the addresses of
a vector access are not wrapped (R53; the spec's own decision D3). That it is the first address that is recorded is the
spec's own decision D19 and log entry 13: R207 lets a model record any fault that applies. -/
def Obligations.AccessOutsideMemoryFaults : Prop :=
  (∀ (s : State) (p q : Int), IsCell p → IsCell q → s.params.memSize ≤ (s.x q).toNat →
    exec (.load p q) s = .fault (.memOutOfRange s.pc .load s.pending.slot (s.x q).toNat) ∧
    exec (.store q p) s = .fault (.memOutOfRange s.pc .store s.pending.slot (s.x q).toNat)) ∧
  (∀ (s : State) (p q : Int), IsBase p → IsCell q → s.params.memSize ≤ (s.x q).toNat + 7 →
    exec (.vload p q) s =
      .fault (.memOutOfRange s.pc .load s.pending.slot (max (s.x q).toNat s.params.memSize)) ∧
    exec (.vstore q p) s =
      .fault (.memOutOfRange s.pc .store s.pending.slot (max (s.x q).toNat s.params.memSize)))

/-! ## Flow (44_flow.md) -/

/-- `select` and, lane by lane, `vselect` take `a` where the condition is any word other than 0, else `b` (R174, R175). -/
def Obligations.SelectsTestAgainstZero : Prop :=
  (∀ (s : State) (d c a b : Int), IsCell d → IsCell c → IsCell a → IsCell b →
    exec (.select d c a b) s = .next (s.pend d (if (s.x c).toNat ≠ 0 then s.x a else s.x b))) ∧
  (∀ (s : State) (d c a b : Int), IsBase d → IsBase c → IsBase a → IsBase b →
    ∃ v : Nat → Word, exec (.vselect d c a b) s = .next (s.pendVector d v) ∧
      ∀ k : Nat, k < 8 → v k = if (s.x (c + k)).toNat ≠ 0 then s.x (a + k) else s.x (b + k))

/-- `add_imm` adds an immediate of either sign and any size, modulo 2^32, and `imm` may be 0, a move (R176). -/
def Obligations.AddImmediateModTwoPow32 : Prop :=
  ∀ (s : State) (d a imm : Int), IsCell d → IsCell a →
    ∃ v : Word, exec (.addImm d a imm) s = .next (s.pend d v) ∧
      (v.toNat : Int) = (((s.x a).toNat : Int) + imm) % 2 ^ 32

/-- The four jumps: the absolute ones set the next `pc` to their operand, the indirect one to the word of a cell, and the
conditional ones do so exactly when their cell holds a word other than 0 (R180, R182, R183). -/
def Obligations.JumpsSetTheNextPc : Prop :=
  (∀ (s : State) (c t : Int), IsCell c →
    exec (.condJump c t) s = .next (if (s.x c).toNat ≠ 0 then s.pendPc t else s)) ∧
  (∀ (s : State) (t : Int), exec (.jump t) s = .next (s.pendPc t)) ∧
  (∀ (s : State) (a : Int), IsCell a → exec (.jumpIndirect a) s = .next (s.pendPc ((s.x a).toNat : Int)))

/-- A taken `cond_jump_rel` goes to `pc + REL_BASE + offset`, for each of the two values of `REL_BASE`; not taken, it leaves
the next `pc` alone (R181; the spec's own decision D9). -/
def Obligations.RelativeJumpCountsFromRelBase : Prop :=
  ∀ (s : State) (c o : Int), IsCell c →
    (s.x c = 0 → exec (.condJumpRel c o) s = .next s) ∧
    (s.x c ≠ 0 → s.params.relBase = .zero → exec (.condJumpRel c o) s = .next (s.pendPc (s.pc + o))) ∧
    (s.x c ≠ 0 → s.params.relBase = .one → exec (.condJumpRel c o) s = .next (s.pendPc (s.pc + 1 + o)))

/-- `trace_write` appends the word of a cell and `coreid` writes the core's id (R179, R184; decisions D13 and D14 of the
spec). -/
def Obligations.TraceWriteAndCoreId : Prop :=
  (∀ (s : State) (a : Int), IsCell a → exec (.traceWrite a) s = .next (s.pendTrace (s.x a))) ∧
  (∀ (s : State) (d : Int), IsCell d → exec (.coreid d) s = .next (s.pend d s.params.coreId))

/-- A bundle that holds `halt` stops the core for good and one that holds `pause` leaves it at a yield point; both commit
with the `pc` at the next bundle, are counted, and end the host's `run()` (R177, R178; decision D11 of the spec, and D16 on
the counter). -/
def Obligations.HaltAndPauseEndTheRun : Prop :=
  (∀ s : State, exec .halt s = .next (s.pendRunState .stopped) ∧ exec .pause s = .next (s.pendRunState .paused)) ∧
  (∀ (s t : State) (b : Bundle), Ready s → Fetches s b → step s = .next t → t.fault = none →
    (b.flow = some [.halt] → EndedWell t ∧ t.pc = s.pc + 1 ∧ t.cycle = s.cycle + 1 ∧ t.inRun = false) ∧
    (b.flow = some [.pause] → YieldPoint t ∧ t.pc = s.pc + 1 ∧ t.cycle = s.cycle + 1 ∧ t.inRun = false))

/-! ## Debug (45_debug.md) -/

/-- With `ENABLE_DEBUG` true, `compare` and `vcompare` pass and change nothing when every compared cell equals the entry of
its key (R196, R197; that they see the start of the cycle is the spec's own decision D15). -/
def Obligations.AssertionsThatHoldChangeNothing : Prop :=
  (∀ (s : State) (l : Int) (k : Key), IsCell l → s.params.enableDebug = true →
    s.params.traceAt k = some ((s.x l).toNat : Int) → exec (.compare l k) s = .next s) ∧
  (∀ (s : State) (l : Int) (ks : List Key), IsBase l → ks.length = 8 → s.params.enableDebug = true →
    (∀ (n : Nat) (k : Key), ks[n]? = some k → s.params.traceAt k = some ((s.x (l + n)).toNat : Int)) →
    exec (.vcompare l ks) s = .next s)

/-- With `ENABLE_DEBUG` true, a key that `VALUE_TRACE` lacks faults, and so does an entry that differs from the cell, one
that no word equals included; `vcompare` looks all keys up before it compares (R195 to R197; the spec's own decision D15;
that a missing key is recorded rather than a lane that differs is D19 and log entry 13). -/
def Obligations.AssertionsThatFailFault : Prop :=
  (∀ (s : State) (l : Int) (k : Key), IsCell l → s.params.enableDebug = true →
    (s.params.traceAt k = none → exec (.compare l k) s = .fault (.debugKeyMissing s.pc s.pending.slot k)) ∧
    (∀ z : Int, s.params.traceAt k = some z → z ≠ ((s.x l).toNat : Int) →
      exec (.compare l k) s = .fault (.debugAssertFailed s.pc s.pending.slot l.toNat k))) ∧
  (∀ (s : State) (l : Int) (ks : List Key), IsBase l → ks.length = 8 → s.params.enableDebug = true →
    ((∃ k ∈ ks, s.params.traceAt k = none) →
      ∃ k ∈ ks, s.params.traceAt k = none ∧
        exec (.vcompare l ks) s = .fault (.debugKeyMissing s.pc s.pending.slot k)) ∧
    ((∀ k ∈ ks, s.params.traceAt k ≠ none) →
      (∃ (n : Nat) (k : Key), ks[n]? = some k ∧ s.params.traceAt k ≠ some ((s.x (l + n)).toNat : Int)) →
      ∃ (n : Nat) (k : Key), ks[n]? = some k ∧ s.params.traceAt k ≠ some ((s.x (l + n)).toNat : Int) ∧
        exec (.vcompare l ks) s = .fault (.debugAssertFailed s.pc s.pending.slot (l + n).toNat k)))

/-- With `ENABLE_DEBUG` false a well-formed Debug slot is skipped, and a bundle runs exactly as the same bundle without its
Debug slots (R195, R198; that the parameter is fixed at launch is the spec's own decision D30). -/
def Obligations.DisabledDebugSlotsAreSkipped : Prop :=
  (∀ (s : State) (i : Instr), s.params.enableDebug = false → i.engine = .debug → i.wellFormed = true →
    exec i s = .next s) ∧
  (∀ (s : State) (b : Bundle), s.params.enableDebug = false → b.wellFormed = true →
    runBundle b s = runBundle { b with debug := none } s)

/-! ## What an operation changes (20_memory.md R56, 10_state.md R20) -/

/-- The frame of all 47 operations: a slot that answers changes nothing but what is pending, and of that only: writes to
exactly the cells the slot names as destinations, in their order; for `store` and `vstore`, writes to exactly the
addresses they store to; for `trace_write`, one word; for a jump, the next `pc`; for `halt` and `pause`, the next run
state (R20, R25, R28, R35, R39). -/
def Obligations.SlotFrame : Prop :=
  ∀ (i : Instr) (s t : State), exec i s = .next t →
    t = { s with pending := t.pending } ∧
    (∃ ws, t.pending.scratch = s.pending.scratch ++ ws ∧ ws.map Prod.fst = i.writtenCells.map Int.toNat) ∧
    (∃ ws, t.pending.mem = s.pending.mem ++ ws ∧ ws.map Prod.fst = storedAddresses i s) ∧
    (∃ ws, t.pending.trace = s.pending.trace ++ ws ∧ ws.length = if i.isTraceWrite then 1 else 0) ∧
    (i.isJump = false → t.pending.nextPc = s.pending.nextPc) ∧
    (i.isStop = false → t.pending.nextRs = s.pending.nextRs) ∧
    t.pending.slot = s.pending.slot

/-- A slot sees no more of the scratch space than the cells it names as sources: two states that agree on them, on memory,
on the `pc`, on the launch parameters and on what is pending give the same pending effects or the same fault (R23). -/
def Obligations.SlotReadsOnlyItsSources : Prop :=
  ∀ (i : Instr) (s s' : State), (∀ a ∈ i.readCells, s.x a = s'.x a) → s.mem = s'.mem →
    s.pc = s'.pc → s.params = s'.params → s.pending = s'.pending →
    (∃ t t', exec i s = .next t ∧ exec i s' = .next t' ∧ t.pending = t'.pending) ∨
    (∃ r, exec i s = .fault r ∧ exec i s' = .fault r)

/-- `exec` of an ill-formed slot stops with the fault of an ill-formed bundle, and `exec` of a well-formed one never does. That
`exec` of one slot faults so is the model's choice (log entry 12, its last line): the spec has an ill-formed bundle refused
at launch or faulting at its fetch, and runs no slot of it. What makes a slot ill-formed is the spec's: an address outside
the bounds of R85 (R90, check 7; its own decision D5), or for `vcompare` a number of keys other than 8 (R90, check 6; its
own decision D17). -/
def Obligations.IllFormedSlotsHaveNoEffect : Prop :=
  ∀ (i : Instr) (s : State),
    (i.wellFormed = false → ∃ c, exec i s = .fault (.illFormedBundle s.pc c)) ∧
    (i.wellFormed = true → ∀ n c, exec i s ≠ .fault (.illFormedBundle n c))

/-! ## The bundle step (20_memory.md) -/

/-- A step of a core that executes, at a `pc` whose literal decodes, runs the slots of the bundle from the start of the cycle
and then commits; for a bundle of one slot it is `exec` of that slot and the commit (R56). When a core executes is said in the
model's own terms (log entry 11). -/
def Obligations.StepRunsTheDecodedBundle : Prop :=
  (∀ (s t : State) (b : Bundle), Ready s → Fetches s b → runSlots (schedule b) s.beginCycle = .next t →
    step s = .next (t.commit b.counts)) ∧
  (∀ (s t : State) (i : Instr), Ready s → Fetches s (Bundle.single i) → exec i s.beginCycle = .next t →
    step s = .next (t.commit (decide (i.engine ≠ .debug))))

/-- The bundle step as the spec describes it, from its slots taken one by one at the start of the cycle. If each of them
answers, the step completes: every cell and every memory word holds the last value written to it, in the processing order,
or its old value; the trace buffer has grown by the words written; the `pc` and the run state are those of the Flow slot, or
the next bundle and `RUNNING`; the cycle counter has counted the bundle if it has a key other than `debug`; and nothing else
has changed (R56 to R59, R214; the order within one engine is decision D6 of the spec, memory D7, that nothing of a bundle
with a stop or a jump is annulled D11, the place of Debug D15, counting by keys D16). Memory is in its canonical form, which
StepKeepsInv says every step keeps; `inRun` is the model's (log entry 11). -/
def Obligations.BundleReadsThenCommits : Prop :=
  ∀ (s : State) (b : Bundle), Ready s → Mem.wf s.mem → Fetches s b →
    (∀ i ∈ b.allSlots, ∃ t, exec i s.beginCycle = .next t) →
    ∃ t, step s = .next t ∧
      (∀ a : Nat, a < 1536 → t.x a = (lastWrite (bundleScratchWrites b s) a).getD (s.x a)) ∧
      (∀ m, t.memAt m = (lastWrite (bundleMemWrites b s) m).getD (s.memAt m)) ∧
      t.traceBuf = s.traceBuf ++ bundleTrace b s ∧
      t.pc = ((b.slots .flow).head?.bind (fun i => (slotEffect i s).nextPc)).getD (s.pc + 1) ∧
      t.runState = ((b.slots .flow).head?.map (fun i => (slotEffect i s).nextRs)).getD .running ∧
      t.cycle = s.cycle + (if b.counts then 1 else 0) ∧
      t.params = s.params ∧ t.fault = none ∧ t.pending = Pending.empty ∧ t.runCalls = s.runCalls ∧
      (t.inRun = true ↔ t.runState = .running)

/-- If a slot of the bundle does not answer, the step records a fault, ends the host's `run()` and commits nothing: scratch,
memory, trace buffer, `pc`, run state and cycle counter keep their values (R208; the spec's own decision D27). -/
def Obligations.FaultingBundleCommitsNothing : Prop :=
  ∀ (s : State) (b : Bundle), Ready s → Fetches s b → (∃ i ∈ b.allSlots, ∀ t, exec i s.beginCycle ≠ .next t) →
    ∃ r, step s = .next { s with pending := Pending.empty, inRun := false, fault := some r }

/-- The frame of a bundle: whatever a step does with it, cells it does not name as destinations and memory words outside the
addresses it stores to keep their values (R20, R23, R35). A step that faults is among them; that scratch and memory of the
faulted machine keep all their values is the spec's own decision D27 (R208), and log entry 10 is how the model holds such a
machine. -/
def Obligations.BundleFrame : Prop :=
  ∀ (s t : State) (b : Bundle), Ready s → Fetches s b → step s = .next t →
    (∀ a : Nat, (a : Int) ∉ b.writtenCells → t.x a = s.x a) ∧
    (∀ m : Nat, m ∉ bundleStores b s → t.memAt m = s.memAt m)

/-- Two additions exchange two cells in one bundle, a third cell holding 0, without a temporary: each reads the old value
(R57). -/
def Obligations.SwapWithoutTemporary : Prop :=
  ∀ (s : State) (p q z : Int), Ready s → IsCell p → IsCell q → IsCell z → p ≠ q → s.x z = 0 →
    Fetches s { Bundle.empty with alu := some [.aluAdd p q z, .aluAdd q p z] } →
    ∃ t, step s = .next t ∧ t.x p = s.x q ∧ t.x q = s.x p ∧ ∀ a : Nat, (a : Int) ≠ p → (a : Int) ≠ q → t.x a = s.x a

/-- When a `const` and a Flow `add_imm` of one bundle write one cell, the Flow engine's value stays: it is processed last
(R58). -/
def Obligations.LaterEngineWins : Prop :=
  ∀ (s : State) (d a val imm : Int), Ready s → IsCell d → IsCell a →
    Fetches s { Bundle.empty with load := some [.const d val], flow := some [.addImm d a imm] } →
    ∃ t, step s = .next t ∧ ((t.x d).toNat : Int) = (((s.x a).toNat : Int) + imm) % 2 ^ 32

/-- A `load` in the bundle of a `store` to the same address reads the old word, and the stored word stays in memory (R59; the
spec's own decision D7). Memory is in its canonical form, which StepKeepsInv says every step keeps. -/
def Obligations.LoadBesideStoreReadsOldWord : Prop :=
  ∀ (s : State) (d a src : Int), Ready s → Mem.wf s.mem → IsCell d → IsCell a → IsCell src → (s.x a).toNat < s.params.memSize →
    Fetches s { Bundle.empty with load := some [.load d a], store := some [.store a src] } →
    ∃ t, step s = .next t ∧ t.x d = s.memAt (s.x a).toNat ∧ t.memAt (s.x a).toNat = s.x src

/-- The empty bundle moves the `pc` on and changes nothing else; with an `alu` key over an empty list it is counted as a
cycle, with a `debug` key over one it is not (R96, R214; the spec's own decision D16). -/
def Obligations.EmptyBundlesMoveThePcOnly : Prop :=
  ∀ s : State, Ready s →
    (Fetches s Bundle.empty → step s = .next { s with pending := Pending.empty, pc := s.pc + 1 }) ∧
    (Fetches s { Bundle.empty with debug := some [] } →
      step s = .next { s with pending := Pending.empty, pc := s.pc + 1 }) ∧
    (Fetches s { Bundle.empty with alu := some [] } →
      step s = .next { s with pending := Pending.empty, pc := s.pc + 1, cycle := s.cycle + 1 })

/-! ## The whole machine -/

/-- Every step keeps the invariant of the state: memory in canonical form over existing addresses, nothing pending at a
cycle boundary, and a core that runs without a fault while the host is inside `run()` (10_state.md R36, 20_memory.md R53).
The canonical form and the host's place are the model's (log entries 6 and 11). Of a step that faults it speaks too: memory
then keeps its words by the spec's own decision D27 (log entry 10). -/
def Obligations.StepKeepsInv : Prop :=
  ∀ s t : State, Inv s → step s = .next t → Inv t

/-- The invariant holds at reset, and of every state a launch makes (10_state.md R38). -/
def Obligations.ResetAndLaunchMeetInv : Prop :=
  Inv State.reset ∧
  ∀ (p : Params) (image : Mem) (calls : Nat) (s : State), launch p image calls = .ok s → Inv s

/-- No step changes the program or any other launch parameter: a store can never change what a later fetch returns, and with
one `pc` the fetch gives one literal for the life of the machine (10_state.md R31, R33; 20_memory.md R62; the spec's own
decisions D25 and D30). -/
def Obligations.NoStepChangesTheProgram : Prop :=
  ∀ s t : State, step s = .next t → t.params = s.params ∧ (t.pc = s.pc → fetch t = fetch s)

/-- A machine without a recorded fault always has a next step, whatever its state, and one with a recorded fault has none: no
instruction is refused, and `step` ends in a fault only where an earlier step has recorded it. The spec's part is that a
faulted machine has no step (60_exceptions.md R205; its own decision D18). The rest is the model's choice: that a step in
which a fault arises answers a next state (log entry 10), and that a stopped or waiting core has one too, the host's turn,
where the spec gives the core none (log entry 11). -/
def Obligations.OnlyARecordedFaultEndsTheSteps : Prop :=
  ∀ s : State, (s.fault = none → ∃ t, step s = .next t) ∧ (∀ r, s.fault = some r → step s = .fault r)

/-- A step leaves the cycle counter or adds 1 to it, and leaves the trace buffer or appends one word to it: a bundle has one
Flow slot (10_state.md R39, 60_exceptions.md R214). That the counter is never reset and never wraps is the spec's own
decision D16, that nothing empties or bounds the buffer its decision D13 (log entry 18); that both survive a step that
faults is its decision D27 (log entry 10). -/
def Obligations.CountersOnlyGrow : Prop :=
  ∀ s t : State, step s = .next t →
    s.cycle ≤ t.cycle ∧ t.cycle ≤ s.cycle + 1 ∧
    ∃ ws, t.traceBuf = s.traceBuf ++ ws ∧ ws.length ≤ 1

/-- Only a `halt`, a `pause`, or the end of the program under `END_OF_PROGRAM = stop` takes a core out of `RUNNING`
(10_state.md R28). The end of the program as a way out is the spec's own decision D10, whose alternative `stop` it takes
from general knowledge (log entry 16, PRESUMED); R177 has nothing but `halt` end a program without a fault. That a step that
faults leaves the core `RUNNING` is its decision D27 (R208; log entry 10). -/
def Obligations.OnlyHaltPauseOrEndLeaveRunning : Prop :=
  ∀ s t : State, s.runState = .running → step s = .next t → t.runState ≠ .running →
    (∃ b, Fetches s b ∧ (t.runState = .stopped ∧ Instr.halt ∈ b.slots .flow ∨
      t.runState = .paused ∧ Instr.pause ∈ b.slots .flow)) ∨
    (t.runState = .stopped ∧ s.params.endOfProgram = .stop ∧ (s.params.program.length : Int) ≤ s.pc)

/-- A stopped core stays as it is: no step changes its run state, scratch, memory, `pc`, cycle counter, trace buffer or
fault, whatever the host calls (60_exceptions.md R216, 44_flow.md R177; the spec's own decision D21). The host's turns,
which are steps of the model, are its own (log entry 11). -/
def Obligations.StoppedCoreStaysStopped : Prop :=
  ∀ s t : State, s.runState = .stopped → step s = .next t →
    t.runState = .stopped ∧ t.scratch = s.scratch ∧ t.mem = s.mem ∧ t.pc = s.pc ∧ t.cycle = s.cycle ∧
    t.traceBuf = s.traceBuf ∧ t.fault = s.fault

/-- A fetch outside the program: at a negative `pc` a fault, at or beyond the end a fault or, under `END_OF_PROGRAM = stop`,
the run state `STOPPED`, with nothing executed and no cycle counted (60_exceptions.md R206, R215; the spec's own decision
D10, with `stop` PRESUMED in log entry 16). That the faulted machine keeps all else is its decision D27 (log entry 10). -/
def Obligations.FetchOutsideTheProgram : Prop :=
  ∀ s : State, Ready s →
    (s.pc < 0 → step s = .next (s.takeFault (.fetchOutOfRange s.pc))) ∧
    ((s.params.program.length : Int) ≤ s.pc →
      (s.params.endOfProgram = .fault → step s = .next (s.takeFault (.fetchOutOfRange s.pc))) ∧
      (s.params.endOfProgram = .stop →
        step s = .next { s with pending := Pending.empty, runState := .stopped, inRun := false }))

/-- A bundle that fails a check of R90 is never executed: the fetch faults and records its index and the check
(60_exceptions.md R206, the spec's own decision D17). Which check is named where several fail is the model's choice (log
entry 12). That the faulted machine keeps all else is the spec's decision D27 (log entry 10). -/
def Obligations.IllFormedBundleIsNeverExecuted : Prop :=
  ∀ (s : State) (lit : Py) (c : Check), Ready s → fetch s = some lit → decodeBundle lit = .error c →
    step s = .next (s.takeFault (.illFormedBundle s.pc c))

/-- The host's `run()`: while the core is not executing and the host makes a call, a paused or launched core starts to
execute with everything kept, at the bundle after the pausing one, and a stopped core is left alone; without a call
nothing changes (60_exceptions.md R215, R216, R219; 44_flow.md R178; the spec's own decisions D12 and D21). The two fields
that stand for the host are the model's (log entry 11). -/
def Obligations.RunResumesAPausedCore : Prop :=
  ∀ s : State, s.fault = none → s.inRun = false →
    (s.runCalls = 0 → step s = .next s) ∧
    (∀ n, s.runCalls = n + 1 → s.runState ≠ .stopped →
      step s = .next { s with runState := .running, inRun := true, runCalls := n }) ∧
    (∀ n, s.runCalls = n + 1 → s.runState = .stopped → step s = .next { s with runCalls := n })

/-- Every scratch cell holds 0 at launch, whatever the host supplies (10_state.md R24). -/
def Obligations.ScratchIsZeroAtLaunch : Prop :=
  ∀ (p : Params) (image : Mem) (calls : Nat) (s : State), launch p image calls = .ok s → ∀ a : Int, s.x a = 0

/-- A launch refuses a program exactly when one of its bundles is ill-formed; an accepted one starts with the state of R38: the
image as memory, `pc` 0, `RUNNING`, nothing counted, traced or faulted, and nothing executed before the host's first
`run()` (30_encoding.md R90, 70_reset_and_hazards.md R235; the spec's own decisions D4, D5, D8, D13, D16, D17, D21). The
form of the image is the model's (log entry 6); of several ill-formed bundles the statement leaves open which is named
(log entry 12). -/
def Obligations.LaunchChecksTheProgram : Prop :=
  ∀ (p : Params) (image : Mem) (calls : Nat), Mem.wf image → Mem.within image p.memSize →
    ((∀ lit ∈ p.program, ∃ b, decodeBundle lit = .ok b) →
      ∃ s, launch p image calls = .ok s ∧ s.params = p ∧ s.mem = image ∧ s.pc = 0 ∧ s.runState = .running ∧
        s.cycle = 0 ∧ s.traceBuf = [] ∧ s.fault = none ∧ s.inRun = false) ∧
    ((∃ lit ∈ p.program, ∃ c, decodeBundle lit = .error c) →
      ∃ (n : Nat) (lit : Py) (c : Check), p.program[n]? = some lit ∧ decodeBundle lit = .error c ∧
        launch p image calls = .error (.illFormedProgram n c))
end

