-- ==== Sys2Proof/Laws/Arith.lean ====
section
/-! SUPPORT. The value of each lane function as the spec's own arithmetic on unbounded integers (40_alu.md R125). -/

namespace Sys2Proof.Machine

@[simp] theorem ofNatMod_toNat (v : Nat) : (Word.ofNatMod v).toNat = v % 2 ^ 32 := by
  simp [Word.ofNatMod]

@[simp] theorem ofIntMod_toNat (v : Int) : ((Word.ofIntMod v).toNat : Int) = v % 2 ^ 32 := by
  have h : (0 : Int) ≤ v % 4294967296 := Int.emod_nonneg v (by decide)
  simp [Word.ofIntMod, BitVec.toNat_ofInt, Int.toNat_of_nonneg h]

/-- A natural number below 2^32 is not changed by the reduction. -/
theorem ofNatMod_toNat_of_lt {v : Nat} (h : v < 2 ^ 32) : (Word.ofNatMod v).toNat = v := by
  rw [ofNatMod_toNat, Nat.mod_eq_of_lt h]

/-- A word is less than 2^32 (00_scope.md R8). -/
theorem word_lt (w : Word) : w.toNat < 2 ^ 32 := w.isLt

/-- A word is 0 exactly when its number is. -/
theorem word_eq_zero_iff (w : Word) : w = 0 ↔ w.toNat = 0 := by
  constructor
  · rintro rfl; rfl
  · intro h; exact BitVec.eq_of_toNat_eq (by simpa using h)

theorem isTrue_iff (w : Word) : isTrue w = true ↔ w.toNat ≠ 0 := by
  rw [isTrue, decide_eq_true_iff]
  exact not_congr (word_eq_zero_iff w)

/-- The left shift is the exact product reduced, for a count of any size. -/
theorem shl_value (a b : Word) :
    (if 32 ≤ b.toNat then (0 : Word) else Word.ofNatMod (a.toNat * 2 ^ b.toNat)).toNat =
      (a.toNat * 2 ^ b.toNat) % 2 ^ 32 := by
  split
  case isTrue h =>
    have : 2 ^ 32 ∣ a.toNat * 2 ^ b.toNat := Dvd.dvd.mul_left (pow_dvd_pow 2 h) _
    rw [Nat.mod_eq_zero_of_dvd this]
    rfl
  case isFalse => exact ofNatMod_toNat _

/-- The right shift is the exact quotient, for a count of any size. -/
theorem shr_value (a b : Word) :
    (if 32 ≤ b.toNat then (0 : Word) else Word.ofNatMod (a.toNat / 2 ^ b.toNat)).toNat = a.toNat / 2 ^ b.toNat := by
  split
  case isTrue h =>
    have h1 : a.toNat < 2 ^ b.toNat := lt_of_lt_of_le a.isLt (Nat.pow_le_pow_right (by omega) h)
    rw [Nat.div_eq_of_lt h1]
    rfl
  case isFalse =>
    exact ofNatMod_toNat_of_lt (lt_of_le_of_lt (Nat.div_le_self _ _) a.isLt)

/-- The ceiling quotient does not exceed the dividend, so the reduction changes nothing. -/
theorem cdiv_value (a b : Word) (hb : b.toNat ≠ 0) :
    (Word.ofNatMod ((a.toNat + b.toNat - 1) / b.toNat)).toNat = (a.toNat + b.toNat - 1) / b.toNat := by
  refine ofNatMod_toNat_of_lt (lt_of_le_of_lt ?_ a.isLt)
  have hpos : 0 < b.toNat := Nat.pos_of_ne_zero hb
  rcases Nat.eq_zero_or_pos a.toNat with ha | ha
  · rw [ha, Nat.div_eq_of_lt (by omega)]
  · refine Nat.div_le_of_le_mul ?_
    obtain ⟨m, hm⟩ := Nat.exists_eq_succ_of_ne_zero (Nat.pos_iff_ne_zero.1 ha)
    obtain ⟨n, hn⟩ := Nat.exists_eq_succ_of_ne_zero hb
    rw [hm, hn]
    have : m.succ + n.succ - 1 = m + n + 1 := by omega
    rw [this]
    nlinarith [Nat.zero_le (m * n)]

end Sys2Proof.Machine
end

