-- ==== Sys2Proof/Laws/Decode.lean ====
section
/-! SUPPORT. Lemmas of the decoder: the two list forms of a literal, and what a decoded slot is known to meet. -/

namespace Sys2Proof

@[simp] theorem Pys.toList_ofList (l : List Py) : (Pys.ofList l).toList = l := by
  induction l with
  | nil => rfl
  | cons x xs ih => simp [Pys.ofList, Pys.toList, ih]

@[simp] theorem Pys.ofList_toList : (l : Pys) → Pys.ofList l.toList = l
  | .nil => rfl
  | .cons x xs => by simp [Pys.ofList, Pys.toList, Pys.ofList_toList xs]

@[simp] theorem Kvs.toList_ofList (l : List (Py × Py)) : (Kvs.ofList l).toList = l := by
  induction l with
  | nil => rfl
  | cons x xs ih => simp [Kvs.ofList, Kvs.toList, ih]

@[simp] theorem Kvs.ofList_toList : (l : Kvs) → Kvs.ofList l.toList = l
  | .nil => rfl
  | .cons k v rest => by simp [Kvs.ofList, Kvs.toList, Kvs.ofList_toList rest]

/-- The checks of WellFormed on one slot, as one condition. -/
theorem Instr.failedCheck_eq_none {e : Engine} {i : Instr} :
    i.failedCheck e = none ↔ i.engine = e ∧ i.wellFormed = true := by
  unfold Instr.failedCheck Instr.wellFormed
  by_cases h1 : i.engine = e <;> by_cases h2 : i.keysFit = true <;> by_cases h3 : i.inScratchRange = true <;>
    simp [h1, h2, h3]

/-- A decoded slot: its shape was read, and it passes the checks. -/
theorem decodeSlot_ok {e : Engine} {p : Py} {i : Instr} (h : decodeSlot e p = .ok i) :
    readSlot e p = .ok i ∧ i.engine = e ∧ i.wellFormed = true := by
  unfold decodeSlot at h
  split at h
  case h_1 j hj =>
    split at h
    case h_1 => cases h
    case h_2 hc => cases h; exact ⟨hj, Instr.failedCheck_eq_none.1 hc⟩
  case h_2 => cases h

/-- An operation does not decode under a key that is not its engine's. -/
theorem decodeSlot_other_engine {e : Engine} {p : Py} {i : Instr} (he : e ≠ i.engine) : decodeSlot e p ≠ .ok i :=
  fun h => he (decodeSlot_ok h).2.1.symm

/-- A decoded bundle passes every check. -/
theorem decodeBundle_ok {p : Py} {b : Bundle} (h : decodeBundle p = .ok b) : b.failedCheck = none := by
  unfold decodeBundle at h
  split at h
  case h_1 entries =>
    split at h
    case h_1 c hc =>
      split at h
      case h_1 => cases h
      case h_2 hn => cases h; exact hn
    case h_2 => cases h
  case h_2 => cases h

/-- What a bundle that passes every check has under each engine's key. -/
theorem Bundle.failedCheck_at {b : Bundle} (h : b.failedCheck = none) (e : Engine) :
    (b.slots e).length ≤ slotLimit e ∧ ∀ i ∈ b.slots e, i.engine = e ∧ i.wellFormed = true := by
  unfold Bundle.failedCheck at h
  rw [List.findSome?_eq_none_iff] at h
  have h := h e (by cases e <;> simp [Engine.order])
  unfold Bundle.failedCheckAt at h
  split at h
  case isTrue => cases h
  case isFalse hl =>
    rw [List.findSome?_eq_none_iff] at h
    exact ⟨by omega, fun i hi => Instr.failedCheck_eq_none.1 (h i hi)⟩

end Sys2Proof
end

