-- ==== Sys2Proof/Laws/State.lean ====
section
/-! SUPPORT. What each operation on the state does to each field, one lemma a field, true by unfolding. -/

namespace Sys2Proof.Machine

/-! ### State.pend -/

@[simp] theorem State.pend_params (s : State) (a : Int) (v : Word) : (s.pend a v).params = s.params := rfl
@[simp] theorem State.pend_scratch (s : State) (a : Int) (v : Word) : (s.pend a v).scratch = s.scratch := rfl
@[simp] theorem State.pend_mem (s : State) (a : Int) (v : Word) : (s.pend a v).mem = s.mem := rfl
@[simp] theorem State.pend_pc (s : State) (a : Int) (v : Word) : (s.pend a v).pc = s.pc := rfl
@[simp] theorem State.pend_runState (s : State) (a : Int) (v : Word) : (s.pend a v).runState = s.runState := rfl
@[simp] theorem State.pend_cycle (s : State) (a : Int) (v : Word) : (s.pend a v).cycle = s.cycle := rfl
@[simp] theorem State.pend_traceBuf (s : State) (a : Int) (v : Word) : (s.pend a v).traceBuf = s.traceBuf := rfl
@[simp] theorem State.pend_fault (s : State) (a : Int) (v : Word) : (s.pend a v).fault = s.fault := rfl
@[simp] theorem State.pend_inRun (s : State) (a : Int) (v : Word) : (s.pend a v).inRun = s.inRun := rfl
@[simp] theorem State.pend_runCalls (s : State) (a : Int) (v : Word) : (s.pend a v).runCalls = s.runCalls := rfl
@[simp] theorem State.pend_pending_scratch (s : State) (a : Int) (v : Word) :
    (s.pend a v).pending.scratch = s.pending.scratch ++ [(a.toNat, v)] := rfl
@[simp] theorem State.pend_pending_mem (s : State) (a : Int) (v : Word) :
    (s.pend a v).pending.mem = s.pending.mem := rfl
@[simp] theorem State.pend_pending_trace (s : State) (a : Int) (v : Word) :
    (s.pend a v).pending.trace = s.pending.trace := rfl
@[simp] theorem State.pend_pending_nextPc (s : State) (a : Int) (v : Word) :
    (s.pend a v).pending.nextPc = s.pending.nextPc := rfl
@[simp] theorem State.pend_pending_nextRs (s : State) (a : Int) (v : Word) :
    (s.pend a v).pending.nextRs = s.pending.nextRs := rfl
@[simp] theorem State.pend_pending_slot (s : State) (a : Int) (v : Word) :
    (s.pend a v).pending.slot = s.pending.slot := rfl
@[simp] theorem State.pend_x (s : State) (a : Int) (v : Word) (c : Int) : (s.pend a v).x c = s.x c := rfl
@[simp] theorem State.pend_memAt (s : State) (a : Int) (v : Word) (c : Nat) : (s.pend a v).memAt c = s.memAt c := rfl

/-! ### State.pendVector -/

@[simp] theorem State.pendVector_params (s : State) (a : Int) (v : Nat → Word) : (s.pendVector a v).params = s.params := rfl
@[simp] theorem State.pendVector_scratch (s : State) (a : Int) (v : Nat → Word) : (s.pendVector a v).scratch = s.scratch := rfl
@[simp] theorem State.pendVector_mem (s : State) (a : Int) (v : Nat → Word) : (s.pendVector a v).mem = s.mem := rfl
@[simp] theorem State.pendVector_pc (s : State) (a : Int) (v : Nat → Word) : (s.pendVector a v).pc = s.pc := rfl
@[simp] theorem State.pendVector_runState (s : State) (a : Int) (v : Nat → Word) : (s.pendVector a v).runState = s.runState := rfl
@[simp] theorem State.pendVector_cycle (s : State) (a : Int) (v : Nat → Word) : (s.pendVector a v).cycle = s.cycle := rfl
@[simp] theorem State.pendVector_traceBuf (s : State) (a : Int) (v : Nat → Word) : (s.pendVector a v).traceBuf = s.traceBuf := rfl
@[simp] theorem State.pendVector_fault (s : State) (a : Int) (v : Nat → Word) : (s.pendVector a v).fault = s.fault := rfl
@[simp] theorem State.pendVector_inRun (s : State) (a : Int) (v : Nat → Word) : (s.pendVector a v).inRun = s.inRun := rfl
@[simp] theorem State.pendVector_runCalls (s : State) (a : Int) (v : Nat → Word) : (s.pendVector a v).runCalls = s.runCalls := rfl
@[simp] theorem State.pendVector_pending_scratch (s : State) (a : Int) (v : Nat → Word) :
    (s.pendVector a v).pending.scratch = s.pending.scratch ++ laneWrites a.toNat v := rfl
@[simp] theorem State.pendVector_pending_mem (s : State) (a : Int) (v : Nat → Word) :
    (s.pendVector a v).pending.mem = s.pending.mem := rfl
@[simp] theorem State.pendVector_pending_trace (s : State) (a : Int) (v : Nat → Word) :
    (s.pendVector a v).pending.trace = s.pending.trace := rfl
@[simp] theorem State.pendVector_pending_nextPc (s : State) (a : Int) (v : Nat → Word) :
    (s.pendVector a v).pending.nextPc = s.pending.nextPc := rfl
@[simp] theorem State.pendVector_pending_nextRs (s : State) (a : Int) (v : Nat → Word) :
    (s.pendVector a v).pending.nextRs = s.pending.nextRs := rfl
@[simp] theorem State.pendVector_pending_slot (s : State) (a : Int) (v : Nat → Word) :
    (s.pendVector a v).pending.slot = s.pending.slot := rfl
@[simp] theorem State.pendVector_x (s : State) (a : Int) (v : Nat → Word) (c : Int) : (s.pendVector a v).x c = s.x c := rfl
@[simp] theorem State.pendVector_memAt (s : State) (a : Int) (v : Nat → Word) (c : Nat) : (s.pendVector a v).memAt c = s.memAt c := rfl

/-! ### State.pendMem -/

@[simp] theorem State.pendMem_params (s : State) (m : Nat) (v : Word) : (s.pendMem m v).params = s.params := rfl
@[simp] theorem State.pendMem_scratch (s : State) (m : Nat) (v : Word) : (s.pendMem m v).scratch = s.scratch := rfl
@[simp] theorem State.pendMem_mem (s : State) (m : Nat) (v : Word) : (s.pendMem m v).mem = s.mem := rfl
@[simp] theorem State.pendMem_pc (s : State) (m : Nat) (v : Word) : (s.pendMem m v).pc = s.pc := rfl
@[simp] theorem State.pendMem_runState (s : State) (m : Nat) (v : Word) : (s.pendMem m v).runState = s.runState := rfl
@[simp] theorem State.pendMem_cycle (s : State) (m : Nat) (v : Word) : (s.pendMem m v).cycle = s.cycle := rfl
@[simp] theorem State.pendMem_traceBuf (s : State) (m : Nat) (v : Word) : (s.pendMem m v).traceBuf = s.traceBuf := rfl
@[simp] theorem State.pendMem_fault (s : State) (m : Nat) (v : Word) : (s.pendMem m v).fault = s.fault := rfl
@[simp] theorem State.pendMem_inRun (s : State) (m : Nat) (v : Word) : (s.pendMem m v).inRun = s.inRun := rfl
@[simp] theorem State.pendMem_runCalls (s : State) (m : Nat) (v : Word) : (s.pendMem m v).runCalls = s.runCalls := rfl
@[simp] theorem State.pendMem_pending_scratch (s : State) (m : Nat) (v : Word) :
    (s.pendMem m v).pending.scratch = s.pending.scratch := rfl
@[simp] theorem State.pendMem_pending_mem (s : State) (m : Nat) (v : Word) :
    (s.pendMem m v).pending.mem = s.pending.mem ++ [(m, v)] := rfl
@[simp] theorem State.pendMem_pending_trace (s : State) (m : Nat) (v : Word) :
    (s.pendMem m v).pending.trace = s.pending.trace := rfl
@[simp] theorem State.pendMem_pending_nextPc (s : State) (m : Nat) (v : Word) :
    (s.pendMem m v).pending.nextPc = s.pending.nextPc := rfl
@[simp] theorem State.pendMem_pending_nextRs (s : State) (m : Nat) (v : Word) :
    (s.pendMem m v).pending.nextRs = s.pending.nextRs := rfl
@[simp] theorem State.pendMem_pending_slot (s : State) (m : Nat) (v : Word) :
    (s.pendMem m v).pending.slot = s.pending.slot := rfl
@[simp] theorem State.pendMem_x (s : State) (m : Nat) (v : Word) (c : Int) : (s.pendMem m v).x c = s.x c := rfl
@[simp] theorem State.pendMem_memAt (s : State) (m : Nat) (v : Word) (c : Nat) : (s.pendMem m v).memAt c = s.memAt c := rfl

/-! ### State.pendMemVector -/

@[simp] theorem State.pendMemVector_params (s : State) (m : Nat) (v : Nat → Word) : (s.pendMemVector m v).params = s.params := rfl
@[simp] theorem State.pendMemVector_scratch (s : State) (m : Nat) (v : Nat → Word) : (s.pendMemVector m v).scratch = s.scratch := rfl
@[simp] theorem State.pendMemVector_mem (s : State) (m : Nat) (v : Nat → Word) : (s.pendMemVector m v).mem = s.mem := rfl
@[simp] theorem State.pendMemVector_pc (s : State) (m : Nat) (v : Nat → Word) : (s.pendMemVector m v).pc = s.pc := rfl
@[simp] theorem State.pendMemVector_runState (s : State) (m : Nat) (v : Nat → Word) : (s.pendMemVector m v).runState = s.runState := rfl
@[simp] theorem State.pendMemVector_cycle (s : State) (m : Nat) (v : Nat → Word) : (s.pendMemVector m v).cycle = s.cycle := rfl
@[simp] theorem State.pendMemVector_traceBuf (s : State) (m : Nat) (v : Nat → Word) : (s.pendMemVector m v).traceBuf = s.traceBuf := rfl
@[simp] theorem State.pendMemVector_fault (s : State) (m : Nat) (v : Nat → Word) : (s.pendMemVector m v).fault = s.fault := rfl
@[simp] theorem State.pendMemVector_inRun (s : State) (m : Nat) (v : Nat → Word) : (s.pendMemVector m v).inRun = s.inRun := rfl
@[simp] theorem State.pendMemVector_runCalls (s : State) (m : Nat) (v : Nat → Word) : (s.pendMemVector m v).runCalls = s.runCalls := rfl
@[simp] theorem State.pendMemVector_pending_scratch (s : State) (m : Nat) (v : Nat → Word) :
    (s.pendMemVector m v).pending.scratch = s.pending.scratch := rfl
@[simp] theorem State.pendMemVector_pending_mem (s : State) (m : Nat) (v : Nat → Word) :
    (s.pendMemVector m v).pending.mem = s.pending.mem ++ laneWrites m v := rfl
@[simp] theorem State.pendMemVector_pending_trace (s : State) (m : Nat) (v : Nat → Word) :
    (s.pendMemVector m v).pending.trace = s.pending.trace := rfl
@[simp] theorem State.pendMemVector_pending_nextPc (s : State) (m : Nat) (v : Nat → Word) :
    (s.pendMemVector m v).pending.nextPc = s.pending.nextPc := rfl
@[simp] theorem State.pendMemVector_pending_nextRs (s : State) (m : Nat) (v : Nat → Word) :
    (s.pendMemVector m v).pending.nextRs = s.pending.nextRs := rfl
@[simp] theorem State.pendMemVector_pending_slot (s : State) (m : Nat) (v : Nat → Word) :
    (s.pendMemVector m v).pending.slot = s.pending.slot := rfl
@[simp] theorem State.pendMemVector_x (s : State) (m : Nat) (v : Nat → Word) (c : Int) : (s.pendMemVector m v).x c = s.x c := rfl
@[simp] theorem State.pendMemVector_memAt (s : State) (m : Nat) (v : Nat → Word) (c : Nat) : (s.pendMemVector m v).memAt c = s.memAt c := rfl

/-! ### State.pendPc -/

@[simp] theorem State.pendPc_params (s : State) (t : Int) : (s.pendPc t).params = s.params := rfl
@[simp] theorem State.pendPc_scratch (s : State) (t : Int) : (s.pendPc t).scratch = s.scratch := rfl
@[simp] theorem State.pendPc_mem (s : State) (t : Int) : (s.pendPc t).mem = s.mem := rfl
@[simp] theorem State.pendPc_pc (s : State) (t : Int) : (s.pendPc t).pc = s.pc := rfl
@[simp] theorem State.pendPc_runState (s : State) (t : Int) : (s.pendPc t).runState = s.runState := rfl
@[simp] theorem State.pendPc_cycle (s : State) (t : Int) : (s.pendPc t).cycle = s.cycle := rfl
@[simp] theorem State.pendPc_traceBuf (s : State) (t : Int) : (s.pendPc t).traceBuf = s.traceBuf := rfl
@[simp] theorem State.pendPc_fault (s : State) (t : Int) : (s.pendPc t).fault = s.fault := rfl
@[simp] theorem State.pendPc_inRun (s : State) (t : Int) : (s.pendPc t).inRun = s.inRun := rfl
@[simp] theorem State.pendPc_runCalls (s : State) (t : Int) : (s.pendPc t).runCalls = s.runCalls := rfl
@[simp] theorem State.pendPc_pending_scratch (s : State) (t : Int) :
    (s.pendPc t).pending.scratch = s.pending.scratch := rfl
@[simp] theorem State.pendPc_pending_mem (s : State) (t : Int) :
    (s.pendPc t).pending.mem = s.pending.mem := rfl
@[simp] theorem State.pendPc_pending_trace (s : State) (t : Int) :
    (s.pendPc t).pending.trace = s.pending.trace := rfl
@[simp] theorem State.pendPc_pending_nextPc (s : State) (t : Int) :
    (s.pendPc t).pending.nextPc = some t := rfl
@[simp] theorem State.pendPc_pending_nextRs (s : State) (t : Int) :
    (s.pendPc t).pending.nextRs = s.pending.nextRs := rfl
@[simp] theorem State.pendPc_pending_slot (s : State) (t : Int) :
    (s.pendPc t).pending.slot = s.pending.slot := rfl
@[simp] theorem State.pendPc_x (s : State) (t : Int) (c : Int) : (s.pendPc t).x c = s.x c := rfl
@[simp] theorem State.pendPc_memAt (s : State) (t : Int) (c : Nat) : (s.pendPc t).memAt c = s.memAt c := rfl

/-! ### State.pendRunState -/

@[simp] theorem State.pendRunState_params (s : State) (r : RunState) : (s.pendRunState r).params = s.params := rfl
@[simp] theorem State.pendRunState_scratch (s : State) (r : RunState) : (s.pendRunState r).scratch = s.scratch := rfl
@[simp] theorem State.pendRunState_mem (s : State) (r : RunState) : (s.pendRunState r).mem = s.mem := rfl
@[simp] theorem State.pendRunState_pc (s : State) (r : RunState) : (s.pendRunState r).pc = s.pc := rfl
@[simp] theorem State.pendRunState_runState (s : State) (r : RunState) : (s.pendRunState r).runState = s.runState := rfl
@[simp] theorem State.pendRunState_cycle (s : State) (r : RunState) : (s.pendRunState r).cycle = s.cycle := rfl
@[simp] theorem State.pendRunState_traceBuf (s : State) (r : RunState) : (s.pendRunState r).traceBuf = s.traceBuf := rfl
@[simp] theorem State.pendRunState_fault (s : State) (r : RunState) : (s.pendRunState r).fault = s.fault := rfl
@[simp] theorem State.pendRunState_inRun (s : State) (r : RunState) : (s.pendRunState r).inRun = s.inRun := rfl
@[simp] theorem State.pendRunState_runCalls (s : State) (r : RunState) : (s.pendRunState r).runCalls = s.runCalls := rfl
@[simp] theorem State.pendRunState_pending_scratch (s : State) (r : RunState) :
    (s.pendRunState r).pending.scratch = s.pending.scratch := rfl
@[simp] theorem State.pendRunState_pending_mem (s : State) (r : RunState) :
    (s.pendRunState r).pending.mem = s.pending.mem := rfl
@[simp] theorem State.pendRunState_pending_trace (s : State) (r : RunState) :
    (s.pendRunState r).pending.trace = s.pending.trace := rfl
@[simp] theorem State.pendRunState_pending_nextPc (s : State) (r : RunState) :
    (s.pendRunState r).pending.nextPc = s.pending.nextPc := rfl
@[simp] theorem State.pendRunState_pending_nextRs (s : State) (r : RunState) :
    (s.pendRunState r).pending.nextRs = r := rfl
@[simp] theorem State.pendRunState_pending_slot (s : State) (r : RunState) :
    (s.pendRunState r).pending.slot = s.pending.slot := rfl
@[simp] theorem State.pendRunState_x (s : State) (r : RunState) (c : Int) : (s.pendRunState r).x c = s.x c := rfl
@[simp] theorem State.pendRunState_memAt (s : State) (r : RunState) (c : Nat) : (s.pendRunState r).memAt c = s.memAt c := rfl

/-! ### State.pendTrace -/

@[simp] theorem State.pendTrace_params (s : State) (w : Word) : (s.pendTrace w).params = s.params := rfl
@[simp] theorem State.pendTrace_scratch (s : State) (w : Word) : (s.pendTrace w).scratch = s.scratch := rfl
@[simp] theorem State.pendTrace_mem (s : State) (w : Word) : (s.pendTrace w).mem = s.mem := rfl
@[simp] theorem State.pendTrace_pc (s : State) (w : Word) : (s.pendTrace w).pc = s.pc := rfl
@[simp] theorem State.pendTrace_runState (s : State) (w : Word) : (s.pendTrace w).runState = s.runState := rfl
@[simp] theorem State.pendTrace_cycle (s : State) (w : Word) : (s.pendTrace w).cycle = s.cycle := rfl
@[simp] theorem State.pendTrace_traceBuf (s : State) (w : Word) : (s.pendTrace w).traceBuf = s.traceBuf := rfl
@[simp] theorem State.pendTrace_fault (s : State) (w : Word) : (s.pendTrace w).fault = s.fault := rfl
@[simp] theorem State.pendTrace_inRun (s : State) (w : Word) : (s.pendTrace w).inRun = s.inRun := rfl
@[simp] theorem State.pendTrace_runCalls (s : State) (w : Word) : (s.pendTrace w).runCalls = s.runCalls := rfl
@[simp] theorem State.pendTrace_pending_scratch (s : State) (w : Word) :
    (s.pendTrace w).pending.scratch = s.pending.scratch := rfl
@[simp] theorem State.pendTrace_pending_mem (s : State) (w : Word) :
    (s.pendTrace w).pending.mem = s.pending.mem := rfl
@[simp] theorem State.pendTrace_pending_trace (s : State) (w : Word) :
    (s.pendTrace w).pending.trace = s.pending.trace ++ [w] := rfl
@[simp] theorem State.pendTrace_pending_nextPc (s : State) (w : Word) :
    (s.pendTrace w).pending.nextPc = s.pending.nextPc := rfl
@[simp] theorem State.pendTrace_pending_nextRs (s : State) (w : Word) :
    (s.pendTrace w).pending.nextRs = s.pending.nextRs := rfl
@[simp] theorem State.pendTrace_pending_slot (s : State) (w : Word) :
    (s.pendTrace w).pending.slot = s.pending.slot := rfl
@[simp] theorem State.pendTrace_x (s : State) (w : Word) (c : Int) : (s.pendTrace w).x c = s.x c := rfl
@[simp] theorem State.pendTrace_memAt (s : State) (w : Word) (c : Nat) : (s.pendTrace w).memAt c = s.memAt c := rfl

/-! ### State.atSlot -/

@[simp] theorem State.atSlot_params (s : State) (n : Nat) : (s.atSlot n).params = s.params := rfl
@[simp] theorem State.atSlot_scratch (s : State) (n : Nat) : (s.atSlot n).scratch = s.scratch := rfl
@[simp] theorem State.atSlot_mem (s : State) (n : Nat) : (s.atSlot n).mem = s.mem := rfl
@[simp] theorem State.atSlot_pc (s : State) (n : Nat) : (s.atSlot n).pc = s.pc := rfl
@[simp] theorem State.atSlot_runState (s : State) (n : Nat) : (s.atSlot n).runState = s.runState := rfl
@[simp] theorem State.atSlot_cycle (s : State) (n : Nat) : (s.atSlot n).cycle = s.cycle := rfl
@[simp] theorem State.atSlot_traceBuf (s : State) (n : Nat) : (s.atSlot n).traceBuf = s.traceBuf := rfl
@[simp] theorem State.atSlot_fault (s : State) (n : Nat) : (s.atSlot n).fault = s.fault := rfl
@[simp] theorem State.atSlot_inRun (s : State) (n : Nat) : (s.atSlot n).inRun = s.inRun := rfl
@[simp] theorem State.atSlot_runCalls (s : State) (n : Nat) : (s.atSlot n).runCalls = s.runCalls := rfl
@[simp] theorem State.atSlot_pending_scratch (s : State) (n : Nat) :
    (s.atSlot n).pending.scratch = s.pending.scratch := rfl
@[simp] theorem State.atSlot_pending_mem (s : State) (n : Nat) :
    (s.atSlot n).pending.mem = s.pending.mem := rfl
@[simp] theorem State.atSlot_pending_trace (s : State) (n : Nat) :
    (s.atSlot n).pending.trace = s.pending.trace := rfl
@[simp] theorem State.atSlot_pending_nextPc (s : State) (n : Nat) :
    (s.atSlot n).pending.nextPc = s.pending.nextPc := rfl
@[simp] theorem State.atSlot_pending_nextRs (s : State) (n : Nat) :
    (s.atSlot n).pending.nextRs = s.pending.nextRs := rfl
@[simp] theorem State.atSlot_pending_slot (s : State) (n : Nat) :
    (s.atSlot n).pending.slot = n := rfl
@[simp] theorem State.atSlot_x (s : State) (n : Nat) (c : Int) : (s.atSlot n).x c = s.x c := rfl
@[simp] theorem State.atSlot_memAt (s : State) (n : Nat) (c : Nat) : (s.atSlot n).memAt c = s.memAt c := rfl

/-! ### State.beginCycle -/

@[simp] theorem State.beginCycle_params (s : State) : s.beginCycle.params = s.params := rfl
@[simp] theorem State.beginCycle_scratch (s : State) : s.beginCycle.scratch = s.scratch := rfl
@[simp] theorem State.beginCycle_mem (s : State) : s.beginCycle.mem = s.mem := rfl
@[simp] theorem State.beginCycle_pc (s : State) : s.beginCycle.pc = s.pc := rfl
@[simp] theorem State.beginCycle_runState (s : State) : s.beginCycle.runState = s.runState := rfl
@[simp] theorem State.beginCycle_cycle (s : State) : s.beginCycle.cycle = s.cycle := rfl
@[simp] theorem State.beginCycle_traceBuf (s : State) : s.beginCycle.traceBuf = s.traceBuf := rfl
@[simp] theorem State.beginCycle_fault (s : State) : s.beginCycle.fault = s.fault := rfl
@[simp] theorem State.beginCycle_pending (s : State) : s.beginCycle.pending = Pending.empty := rfl
@[simp] theorem State.beginCycle_inRun (s : State) : s.beginCycle.inRun = s.inRun := rfl
@[simp] theorem State.beginCycle_runCalls (s : State) : s.beginCycle.runCalls = s.runCalls := rfl
@[simp] theorem State.beginCycle_x (s : State) (c : Int) : s.beginCycle.x c = s.x c := rfl
@[simp] theorem State.beginCycle_memAt (s : State) (c : Nat) : s.beginCycle.memAt c = s.memAt c := rfl

/-! ### State.takeFault -/

@[simp] theorem State.takeFault_params (s : State) (r : Fault) : (s.takeFault r).params = s.params := rfl
@[simp] theorem State.takeFault_scratch (s : State) (r : Fault) : (s.takeFault r).scratch = s.scratch := rfl
@[simp] theorem State.takeFault_mem (s : State) (r : Fault) : (s.takeFault r).mem = s.mem := rfl
@[simp] theorem State.takeFault_pc (s : State) (r : Fault) : (s.takeFault r).pc = s.pc := rfl
@[simp] theorem State.takeFault_runState (s : State) (r : Fault) : (s.takeFault r).runState = s.runState := rfl
@[simp] theorem State.takeFault_cycle (s : State) (r : Fault) : (s.takeFault r).cycle = s.cycle := rfl
@[simp] theorem State.takeFault_traceBuf (s : State) (r : Fault) : (s.takeFault r).traceBuf = s.traceBuf := rfl
@[simp] theorem State.takeFault_fault (s : State) (r : Fault) : (s.takeFault r).fault = some r := rfl
@[simp] theorem State.takeFault_pending (s : State) (r : Fault) : (s.takeFault r).pending = Pending.empty := rfl
@[simp] theorem State.takeFault_inRun (s : State) (r : Fault) : (s.takeFault r).inRun = false := rfl
@[simp] theorem State.takeFault_runCalls (s : State) (r : Fault) : (s.takeFault r).runCalls = s.runCalls := rfl
@[simp] theorem State.takeFault_x (s : State) (r : Fault) (c : Int) : (s.takeFault r).x c = s.x c := rfl
@[simp] theorem State.takeFault_memAt (s : State) (r : Fault) (c : Nat) : (s.takeFault r).memAt c = s.memAt c := rfl

/-! ### State.commit -/

@[simp] theorem State.commit_params (s : State) (c : Bool) :
    (s.commit c).params = s.params := rfl
@[simp] theorem State.commit_scratch (s : State) (c : Bool) :
    (s.commit c).scratch = applyScratch s.scratch s.pending.scratch := rfl
@[simp] theorem State.commit_mem (s : State) (c : Bool) :
    (s.commit c).mem = applyMem s.mem s.pending.mem := rfl
@[simp] theorem State.commit_pc (s : State) (c : Bool) :
    (s.commit c).pc = s.pending.nextPc.getD (s.pc + 1) := rfl
@[simp] theorem State.commit_runState (s : State) (c : Bool) :
    (s.commit c).runState = s.pending.nextRs := rfl
@[simp] theorem State.commit_cycle (s : State) (c : Bool) :
    (s.commit c).cycle = (if c then s.cycle + 1 else s.cycle) := rfl
@[simp] theorem State.commit_traceBuf (s : State) (c : Bool) :
    (s.commit c).traceBuf = s.traceBuf ++ s.pending.trace := rfl
@[simp] theorem State.commit_fault (s : State) (c : Bool) :
    (s.commit c).fault = s.fault := rfl
@[simp] theorem State.commit_pending (s : State) (c : Bool) :
    (s.commit c).pending = Pending.empty := rfl
@[simp] theorem State.commit_inRun (s : State) (c : Bool) :
    (s.commit c).inRun = decide (s.pending.nextRs = .running) := rfl
@[simp] theorem State.commit_runCalls (s : State) (c : Bool) :
    (s.commit c).runCalls = s.runCalls := rfl

/-! ### The pending lists at a cycle boundary -/

@[simp] theorem Pending.empty_scratch : Pending.empty.scratch = [] := rfl
@[simp] theorem Pending.empty_mem : Pending.empty.mem = [] := rfl
@[simp] theorem Pending.empty_trace : Pending.empty.trace = [] := rfl
@[simp] theorem Pending.empty_nextPc : Pending.empty.nextPc = none := rfl
@[simp] theorem Pending.empty_nextRs : Pending.empty.nextRs = .running := rfl
@[simp] theorem Pending.empty_slot : Pending.empty.slot = 0 := rfl

/-! ### State.ofLaunch -/

@[simp] theorem State.ofLaunch_params (p : Params) (image : Mem) (n : Nat) :
    (State.ofLaunch p image n).params = p := rfl
@[simp] theorem State.ofLaunch_scratch (p : Params) (image : Mem) (n : Nat) :
    (State.ofLaunch p image n).scratch = Vector.replicate scratchSize 0 := rfl
@[simp] theorem State.ofLaunch_mem (p : Params) (image : Mem) (n : Nat) :
    (State.ofLaunch p image n).mem = image := rfl
@[simp] theorem State.ofLaunch_pc (p : Params) (image : Mem) (n : Nat) :
    (State.ofLaunch p image n).pc = 0 := rfl
@[simp] theorem State.ofLaunch_runState (p : Params) (image : Mem) (n : Nat) :
    (State.ofLaunch p image n).runState = .running := rfl
@[simp] theorem State.ofLaunch_cycle (p : Params) (image : Mem) (n : Nat) :
    (State.ofLaunch p image n).cycle = 0 := rfl
@[simp] theorem State.ofLaunch_traceBuf (p : Params) (image : Mem) (n : Nat) :
    (State.ofLaunch p image n).traceBuf = [] := rfl
@[simp] theorem State.ofLaunch_fault (p : Params) (image : Mem) (n : Nat) :
    (State.ofLaunch p image n).fault = none := rfl
@[simp] theorem State.ofLaunch_pending (p : Params) (image : Mem) (n : Nat) :
    (State.ofLaunch p image n).pending = Pending.empty := rfl
@[simp] theorem State.ofLaunch_inRun (p : Params) (image : Mem) (n : Nat) :
    (State.ofLaunch p image n).inRun = false := rfl
@[simp] theorem State.ofLaunch_runCalls (p : Params) (image : Mem) (n : Nat) :
    (State.ofLaunch p image n).runCalls = n := rfl

end Sys2Proof.Machine
end

