-- ==== Sys2Proof/Laws/Slots.lean ====
section
/-! SUPPORT. One lemma per shared operation of Machine/Operands.lean: when it answers, and everything it then has done. The
meanings are one call of one of these, so that a proof cites the lemma instead of unfolding the operation. -/

namespace Sys2Proof.Machine

theorem scalarAddr_iff (a : Int) : scalarAddr a = true ↔ 0 ≤ a ∧ a ≤ 1535 := by simp [scalarAddr]

theorem vectorAddr_iff (a : Int) : vectorAddr a = true ↔ 0 ≤ a ∧ a ≤ 1528 := by simp [vectorAddr]

/-- Operands in range: the meaning runs. -/
theorem checked_run {cells bases : List Int} (hc : ∀ a ∈ cells, 0 ≤ a ∧ a ≤ 1535)
    (hb : ∀ a ∈ bases, 0 ≤ a ∧ a ≤ 1528) (s : State) (run : Outcome) : checked cells bases s run = run := by
  have h1 : cells.all scalarAddr = true := by simpa [List.all_eq_true] using hc
  have h2 : bases.all vectorAddr = true := by simpa [List.all_eq_true] using hb
  simp [checked, h1, h2]

/-- If the meaning answers, the operands were in range. -/
theorem checked_next {cells bases : List Int} {s t : State} {run : Outcome} (h : checked cells bases s run = .next t) :
    run = .next t ∧ (∀ a ∈ cells, 0 ≤ a ∧ a ≤ 1535) ∧ ∀ a ∈ bases, 0 ≤ a ∧ a ≤ 1528 := by
  unfold checked at h
  split at h
  case isTrue hr =>
    rw [Bool.and_eq_true, List.all_eq_true, List.all_eq_true] at hr
    exact ⟨h, fun a ha => (scalarAddr_iff a).1 (hr.1 a ha), fun a ha => (vectorAddr_iff a).1 (hr.2 a ha)⟩
  case isFalse => cases h

/-- Format A3: when it answers it has appended one write, of its function's value, to cell `dest`. -/
theorem aluOp_next {f : LaneFn} {d a b : Int} {s t : State} (h : aluOp f d a b s = .next t) :
    ∃ v, f (s.x a) (s.x b) = some v ∧ t = s.pend d v := by
  obtain ⟨h, -, -⟩ := checked_next h
  split at h
  case h_1 v hv => cases h; exact ⟨v, hv, rfl⟩
  case h_2 => cases h

/-- Format A3 on cells in range, where the function has a value. -/
theorem aluOp_run {f : LaneFn} {d a b : Int} {s : State} {v : Word} (hd : 0 ≤ d ∧ d ≤ 1535) (ha : 0 ≤ a ∧ a ≤ 1535)
    (hb : 0 ≤ b ∧ b ≤ 1535) (hv : f (s.x a) (s.x b) = some v) : aluOp f d a b s = .next (s.pend d v) := by
  unfold aluOp
  rw [checked_run (by simpa using ⟨hd, ha, hb⟩) (by simp), hv]

/-- Format V3: when it answers, every lane has a value and the 8 values are appended as writes to the cells of `dest`. -/
theorem valuOp_next {f : LaneFn} {d a b : Int} {s t : State} (h : valuOp f d a b s = .next t) :
    (∀ i : Nat, i < 8 → (f (s.x (a + i)) (s.x (b + i))).isSome = true) ∧
      t = s.pendVector d (fun i => (f (s.x (a + (i : Int))) (s.x (b + (i : Int)))).getD 0) := by
  obtain ⟨h, -, -⟩ := checked_next h
  split at h
  case h_1 => cases h
  case h_2 hn =>
    cases h
    refine ⟨fun i hi => ?_, rfl⟩
    have := List.find?_eq_none.1 hn i (List.mem_range.2 hi)
    simpa [Option.isSome_iff_ne_none] using this

/-- Format V3 on vectors in range, where every lane has a value. -/
theorem valuOp_run {f : LaneFn} {d a b : Int} {s : State} (hd : 0 ≤ d ∧ d ≤ 1528) (ha : 0 ≤ a ∧ a ≤ 1528)
    (hb : 0 ≤ b ∧ b ≤ 1528) (hv : ∀ i : Nat, i < 8 → (f (s.x (a + i)) (s.x (b + i))).isSome = true) :
    valuOp f d a b s = .next (s.pendVector d (fun i => (f (s.x (a + (i : Int))) (s.x (b + (i : Int)))).getD 0)) := by
  unfold valuOp
  have hn : (List.range vlen).find? (fun i : Nat => (f (s.x (a + (i : Int))) (s.x (b + (i : Int)))).isNone) = none := by
    refine List.find?_eq_none.2 fun i hi => ?_
    have := hv i (List.mem_range.1 hi)
    simp [Option.isSome_iff_ne_none.1 this]
  rw [checked_run (by simp) (by simpa using ⟨hd, ha, hb⟩), hn]

/-- No address of an access lies outside memory exactly when the last one exists. -/
theorem firstOutside_eq_none {s : State} {m n : Nat} : s.firstOutside m n = none ↔ ∀ i < n, m + i < s.params.memSize := by
  simp [State.firstOutside, List.find?_eq_none]

/-- If an access answers, every address exists. -/
theorem inMemory_next {e : Engine} {m n : Nat} {s t : State} {run : Outcome} (h : inMemory e m n s run = .next t) :
    run = .next t ∧ ∀ i < n, m + i < s.params.memSize := by
  unfold inMemory at h
  split at h
  case h_1 => cases h
  case h_2 hn => exact ⟨h, firstOutside_eq_none.1 hn⟩

/-- An access to addresses that exist runs. -/
theorem inMemory_run {e : Engine} {m n : Nat} {s : State} (h : ∀ i < n, m + i < s.params.memSize) (run : Outcome) :
    inMemory e m n s run = run := by
  unfold inMemory
  rw [firstOutside_eq_none.2 h]

/-- Formats L2 and LO: when it answers it has appended the write of the addressed word to cell `dest`. -/
theorem loadOp_next {d a : Int} {s t : State} (h : loadOp d a s = .next t) :
    (s.x a).toNat < s.params.memSize ∧ t = s.pend d (s.memAt (s.x a).toNat) := by
  obtain ⟨h, hm⟩ := inMemory_next (checked_next h).1
  cases h
  exact ⟨by simpa using hm 0 (by omega), rfl⟩

/-- A conditional jump: when it answers, the next `pc` is the target, or nothing has changed. -/
theorem condJumpOp_next {c target : Int} {s t : State} (h : condJumpOp c target s = .next t) :
    t = if isTrue (s.x c) then s.pendPc target else s := by
  obtain ⟨h, -, -⟩ := checked_next h
  split at h <;> cases h <;> simp_all

/-- A Debug comparison: when it answers nothing has changed, and every cell equals the entry of its key. -/
theorem compareOp_next {pairs : List (Int × Key)} {s t : State} (h : compareOp pairs s = .next t) :
    t = s ∧ ∀ p ∈ pairs, s.params.traceAt p.2 = some ((s.x p.1).toNat : Int) := by
  unfold compareOp at h
  split at h
  case h_1 => cases h
  case h_2 =>
    split at h
    case h_1 => cases h
    case h_2 hn =>
      cases h
      refine ⟨rfl, fun p hp => ?_⟩
      have := List.find?_eq_none.1 hn p hp
      simpa using this

/-- A Debug comparison that finds every entry equal to its cell answers. -/
theorem compareOp_run {pairs : List (Int × Key)} {s : State}
    (h : ∀ p ∈ pairs, s.params.traceAt p.2 = some ((s.x p.1).toNat : Int)) : compareOp pairs s = .next s := by
  have h1 : pairs.find? (fun p => (s.params.traceAt p.2).isNone) = none :=
    List.find?_eq_none.2 (fun p hp => by simp [h p hp])
  have h2 : pairs.find? (fun p => decide (s.params.traceAt p.2 ≠ some ((s.x p.1).toNat : Int))) = none :=
    List.find?_eq_none.2 (fun p hp => by simp [h p hp])
  unfold compareOp
  rw [h1, h2]

/-- The cells of the pending writes of a vector. -/
theorem laneWrites_fst (a : Nat) (v : Nat → Word) :
    (laneWrites a v).map Prod.fst = (List.range vlen).map (fun i => a + i) := by
  simp [laneWrites, Function.comp_def]

end Sys2Proof.Machine
end

