-- ==== Sys2Proof/Laws/Exec.lean ====
section
/-! SUPPORT. What a slot does, said once for all 47 operations: it answers or faults whatever is pending already, and when it
answers it adds to what is pending exactly what it would leave pending at the start of the cycle. A bundle's evaluation
is therefore the sum of its slots taken one by one. -/

namespace Sys2Proof.Machine

/-- The effects `q` of an operation, gathered from the start of the cycle, added to the pending effects `p`. Only the two
operations that stop the core carry a run state of their own. -/
def Pending.join (p q : Pending) (stops : Bool) : Pending where
  scratch := p.scratch ++ q.scratch
  mem := p.mem ++ q.mem
  trace := p.trace ++ q.trace
  nextPc := q.nextPc.orElse (fun _ => p.nextPc)
  nextRs := if stops then q.nextRs else p.nextRs
  slot := p.slot

/-- One outcome from nothing pending beside one from `p` pending. -/
def Joins (s : State) (p : Pending) (stops : Bool) (o o' : Outcome) : Prop :=
  (∃ q, o = .next { s with pending := q } ∧ o' = .next { s with pending := p.join q stops }) ∨
  (∃ r r', o = .fault r ∧ o' = .fault r')

/-- What is pending has no part in a read of the scratch space. -/
@[simp] theorem x_with_pending (s : State) (p : Pending) (c : Int) : State.x { s with pending := p } c = s.x c := rfl

theorem joins_checked {s : State} {p : Pending} {st : Bool} {c b : List Int} {o o' : Outcome} (h : Joins s p st o o') :
    Joins s p st (checked c b s.beginCycle o) (checked c b { s with pending := p } o') := by
  unfold checked
  split
  · exact h
  · exact .inr ⟨_, _, rfl, rfl⟩

theorem joins_inMemory {s : State} {p : Pending} {st : Bool} {e : Engine} {m n : Nat} {o o' : Outcome}
    (h : Joins s p st o o') :
    Joins s p st (inMemory e m n s.beginCycle o) (inMemory e m n { s with pending := p } o') := by
  unfold inMemory
  show Joins s p st (match s.firstOutside m n with | some a => _ | none => _)
    (match s.firstOutside m n with | some a => _ | none => _)
  split
  · exact .inr ⟨_, _, rfl, rfl⟩
  · exact h

theorem joins_same (s : State) (p : Pending) : Joins s p false (.next s.beginCycle) (.next { s with pending := p }) :=
  .inl ⟨Pending.empty, rfl, by simp [Pending.join, Pending.empty]⟩

theorem joins_pend (s : State) (p : Pending) (d : Int) (v : Word) :
    Joins s p false (.next (s.beginCycle.pend d v)) (.next (State.pend { s with pending := p } d v)) :=
  .inl ⟨_, rfl, by simp [Pending.join, State.pend, State.beginCycle, Pending.empty]⟩

theorem joins_pendVector (s : State) (p : Pending) (d : Int) (v : Nat → Word) :
    Joins s p false (.next (s.beginCycle.pendVector d v)) (.next (State.pendVector { s with pending := p } d v)) :=
  .inl ⟨_, rfl, by simp [Pending.join, State.pendVector, State.beginCycle, Pending.empty]⟩

theorem joins_pendPc (s : State) (p : Pending) (t : Int) :
    Joins s p false (.next (s.beginCycle.pendPc t)) (.next (State.pendPc { s with pending := p } t)) :=
  .inl ⟨_, rfl, by simp [Pending.join, State.pendPc, State.beginCycle, Pending.empty]⟩

theorem joins_pendRunState (s : State) (p : Pending) (r : RunState) :
    Joins s p true (.next (s.beginCycle.pendRunState r)) (.next (State.pendRunState { s with pending := p } r)) :=
  .inl ⟨_, rfl, by simp [Pending.join, State.pendRunState, State.beginCycle, Pending.empty]⟩

theorem joins_aluOp (s : State) (p : Pending) (f : LaneFn) (d a b : Int) :
    Joins s p false (aluOp f d a b s.beginCycle) (aluOp f d a b { s with pending := p }) := by
  refine joins_checked ?_
  show Joins s p false (match f (s.x a) (s.x b) with | some v => _ | none => _)
    (match f (s.x a) (s.x b) with | some v => _ | none => _)
  split
  · exact joins_pend s p _ _
  · exact .inr ⟨_, _, rfl, rfl⟩

theorem joins_valuOp (s : State) (p : Pending) (f : LaneFn) (d a b : Int) :
    Joins s p false (valuOp f d a b s.beginCycle) (valuOp f d a b { s with pending := p }) := by
  refine joins_checked ?_
  simp only [State.beginCycle_x, x_with_pending]
  cases (List.range vlen).find? (fun i : Nat => (f (s.x (a + (i : Int))) (s.x (b + (i : Int)))).isNone) with
  | some lane => exact .inr ⟨_, _, rfl, rfl⟩
  | none => exact joins_pendVector s p _ _

theorem joins_loadOp (s : State) (p : Pending) (d a : Int) :
    Joins s p false (loadOp d a s.beginCycle) (loadOp d a { s with pending := p }) :=
  joins_checked (joins_inMemory (joins_pend s p _ _))

theorem joins_condJumpOp (s : State) (p : Pending) (c t : Int) :
    Joins s p false (condJumpOp c t s.beginCycle) (condJumpOp c t { s with pending := p }) := by
  refine joins_checked ?_
  show Joins s p false (if isTrue (s.x c) then _ else _) (if isTrue (s.x c) then _ else _)
  split
  · exact joins_pendPc s p _
  · exact joins_same s p

theorem joins_compareOp (s : State) (p : Pending) (ps : List (Int × Key)) :
    Joins s p false (compareOp ps s.beginCycle) (compareOp ps { s with pending := p }) := by
  unfold compareOp
  show Joins s p false (match ps.find? (fun k => (s.params.traceAt k.2).isNone) with | some k => _ | none => _)
    (match ps.find? (fun k => (s.params.traceAt k.2).isNone) with | some k => _ | none => _)
  split
  · exact .inr ⟨_, _, rfl, rfl⟩
  · show Joins s p false
      (match ps.find? (fun k => decide (s.params.traceAt k.2 ≠ some ((s.x k.1).toNat : Int))) with
        | some k => _ | none => _)
      (match ps.find? (fun k => decide (s.params.traceAt k.2 ≠ some ((s.x k.1).toNat : Int))) with
        | some k => _ | none => _)
    split
    · exact .inr ⟨_, _, rfl, rfl⟩
    · exact joins_same s p

/-- Every operation: it answers from any pending effects or from none, and adds to `p` what it leaves pending alone. -/
theorem exec_joins (i : Instr) (s : State) (p : Pending) :
    Joins s p i.isStop (exec i s.beginCycle) (exec i { s with pending := p }) := by
  cases i
  case aluAdd d a b => exact joins_aluOp s p addLane d a b
  case aluSub d a b => exact joins_aluOp s p subLane d a b
  case aluMul d a b => exact joins_aluOp s p mulLane d a b
  case aluDiv d a b => exact joins_aluOp s p divLane d a b
  case aluCdiv d a b => exact joins_aluOp s p cdivLane d a b
  case aluXor d a b => exact joins_aluOp s p xorLane d a b
  case aluAnd d a b => exact joins_aluOp s p andLane d a b
  case aluOr d a b => exact joins_aluOp s p orLane d a b
  case aluShl d a b => exact joins_aluOp s p shlLane d a b
  case aluShr d a b => exact joins_aluOp s p shrLane d a b
  case aluMod d a b => exact joins_aluOp s p modLane d a b
  case aluLt d a b => exact joins_aluOp s p ltLane d a b
  case aluEq d a b => exact joins_aluOp s p eqLane d a b
  case valuAdd d a b => exact joins_valuOp s p addLane d a b
  case valuSub d a b => exact joins_valuOp s p subLane d a b
  case valuMul d a b => exact joins_valuOp s p mulLane d a b
  case valuDiv d a b => exact joins_valuOp s p divLane d a b
  case valuCdiv d a b => exact joins_valuOp s p cdivLane d a b
  case valuXor d a b => exact joins_valuOp s p xorLane d a b
  case valuAnd d a b => exact joins_valuOp s p andLane d a b
  case valuOr d a b => exact joins_valuOp s p orLane d a b
  case valuShl d a b => exact joins_valuOp s p shlLane d a b
  case valuShr d a b => exact joins_valuOp s p shrLane d a b
  case valuMod d a b => exact joins_valuOp s p modLane d a b
  case valuLt d a b => exact joins_valuOp s p ltLane d a b
  case valuEq d a b => exact joins_valuOp s p eqLane d a b
  case vbroadcast d src => exact joins_checked (joins_pendVector s p _ _)
  case multiplyAdd d a b c => exact joins_checked (joins_pendVector s p _ _)
  case load d a => exact joins_loadOp s p d a
  case loadOffset d a o => exact joins_loadOp s p (d + o) (a + o)
  case vload d a => exact joins_checked (joins_inMemory (joins_pendVector s p _ _))
  case const d v => exact joins_checked (joins_pend s p _ _)
  case store a src =>
    exact joins_checked (joins_inMemory
      (.inl ⟨_, rfl, by simp [Pending.join, State.pendMem, State.beginCycle, Pending.empty, State.x,
        Instr.isStop]⟩))
  case vstore a src =>
    exact joins_checked (joins_inMemory
      (.inl ⟨_, rfl, by simp [Pending.join, State.pendMemVector, State.beginCycle, Pending.empty, State.x,
        Instr.isStop]⟩))
  case select d c a b => exact joins_checked (joins_pend s p _ _)
  case vselect d c a b => exact joins_checked (joins_pendVector s p _ _)
  case addImm d a imm => exact joins_checked (joins_pend s p _ _)
  case halt => exact joins_pendRunState s p _
  case pause => exact joins_pendRunState s p _
  case traceWrite a =>
    exact joins_checked
      (.inl ⟨_, rfl, by simp [Pending.join, State.pendTrace, State.beginCycle, Pending.empty, State.x, Instr.isStop]⟩)
  case condJump c t => exact joins_condJumpOp s p c t
  case condJumpRel c o => exact joins_condJumpOp s p c _
  case jump t => exact joins_pendPc s p t
  case jumpIndirect a => exact joins_checked (joins_pendPc s p _)
  case coreid d => exact joins_checked (joins_pend s p _ _)
  case compare l k =>
    refine joins_checked ?_
    show Joins s p false (if s.params.enableDebug then _ else _) (if s.params.enableDebug then _ else _)
    split
    · exact joins_compareOp s p _
    · exact joins_same s p
  case vcompare l ks =>
    show Joins s p false (execVcompare l ks _) (execVcompare l ks _)
    unfold execVcompare
    split
    · refine joins_checked ?_
      show Joins s p false (if s.params.enableDebug then _ else _) (if s.params.enableDebug then _ else _)
      split
      · exact joins_compareOp s p _
      · exact joins_same s p
    · exact .inr ⟨_, _, rfl, rfl⟩

end Sys2Proof.Machine
end

