-- ==== Sys2Proof/Laws/Bundle.lean ====
section
/-! SUPPORT. What the evaluation of a bundle and a step can do, said once: every later proof about a step splits by
`step_cases`. -/

namespace Sys2Proof.Machine

/-- If the slots of a list answer, the first does and the others do from there on. -/
theorem runSlots_cons_next {i : Instr} {n : Nat} {rest : List (Instr × Nat)} {s t : State}
    (h : runSlots ((i, n) :: rest) s = .next t) :
    ∃ u, exec i (s.atSlot n) = .next u ∧ runSlots rest u = .next t := by
  unfold runSlots at h
  split at h
  case h_1 u hu => exact ⟨u, hu, h⟩
  case h_2 => cases h
  case h_3 => cases h

/-- A property that every slot keeps, the evaluation of a bundle keeps. -/
theorem runSlots_keeps {P : State → Prop} {slots : List (Instr × Nat)}
    (hexec : ∀ p ∈ slots, ∀ s t, P s → exec p.1 (s.atSlot p.2) = .next t → P t) {s t : State} (hs : P s)
    (h : runSlots slots s = .next t) : P t := by
  induction slots generalizing s with
  | nil => cases h; exact hs
  | cons p rest ih =>
    obtain ⟨u, hu, hrest⟩ := runSlots_cons_next h
    exact ih (fun q hq => hexec q (by simp [hq])) (hexec p (by simp) s u hs hu) hrest

/-- What a bundle ends in: the commit of its slots, or the fault one of them raises. -/
theorem runBundle_next {b : Bundle} {s t : State} (h : runBundle b s = .next t) :
    (∃ u, runSlots (schedule b) s.beginCycle = .next u ∧ t = u.commit b.counts) ∨
    (∃ r, runSlots (schedule b) s.beginCycle = .fault r ∧ t = s.takeFault r) := by
  unfold runBundle at h
  split at h
  case h_1 u hu => cases h; exact .inl ⟨u, hu, rfl⟩
  case h_2 r hr => cases h; exact .inr ⟨r, hr, rfl⟩
  case h_3 => cases h

/-- Everything a step can do when it answers. While the host is inside `run()`: it returns where the core is not running
(first case); the fetch faults or stops at the end (second and third); the bundle is ill-formed (fourth), commits (fifth)
or faults (sixth). Otherwise the host has its turn (seventh). -/
theorem step_cases {s t : State} (h : step s = .next t) :
    s.fault = none ∧
    ((s.inRun = true ∧ s.runState ≠ .running ∧ t = { s with inRun := false }) ∨
     (s.inRun = true ∧ s.runState = .running ∧ fetch s = none ∧ t = s.takeFault (.fetchOutOfRange s.pc)) ∨
     (s.inRun = true ∧ s.runState = .running ∧ fetch s = none ∧ 0 ≤ s.pc ∧ s.params.endOfProgram = .stop ∧
        t = { s with pending := Pending.empty, runState := .stopped, inRun := false }) ∨
     (∃ lit c, s.inRun = true ∧ s.runState = .running ∧ fetch s = some lit ∧ decodeBundle lit = .error c ∧
        t = s.takeFault (.illFormedBundle s.pc c)) ∨
     (∃ lit b u, s.inRun = true ∧ s.runState = .running ∧ fetch s = some lit ∧ decodeBundle lit = .ok b ∧
        runSlots (schedule b) s.beginCycle = .next u ∧ t = u.commit b.counts) ∨
     (∃ lit b r, s.inRun = true ∧ s.runState = .running ∧ fetch s = some lit ∧ decodeBundle lit = .ok b ∧
        runSlots (schedule b) s.beginCycle = .fault r ∧ t = s.takeFault r) ∨
     (s.inRun = false ∧ t = hostTurn s)) := by
  unfold step machineStep at h
  split at h
  case h_1 => cases h
  case h_2 hf =>
    refine ⟨hf, ?_⟩
    split at h
    case isFalse hi =>
      cases h
      simp only [Bool.not_eq_true] at hi
      simp [hi]
    case isTrue hi =>
      split at h
      case h_2 hr => cases h; exact .inl ⟨hi, by simp [hr], rfl⟩
      case h_3 hr => cases h; exact .inl ⟨hi, by simp [hr], rfl⟩
      case h_1 hr =>
        refine .inr ?_
        unfold runningStep at h
        split at h
        case h_1 hnone =>
          split at h
          case isTrue => cases h; exact .inl ⟨hi, hr, hnone, rfl⟩
          case isFalse hpc =>
            cases h
            unfold pastEnd
            split
            case h_1 => exact .inl ⟨hi, hr, hnone, rfl⟩
            case h_2 he => exact .inr (.inl ⟨hi, hr, hnone, by omega, he, rfl⟩)
        case h_2 lit hlit =>
          split at h
          case h_1 c hc => cases h; exact .inr (.inr (.inl ⟨lit, c, hi, hr, hlit, hc, rfl⟩))
          case h_2 b hb =>
            rcases runBundle_next h with ⟨u, hu, rfl⟩ | ⟨r, hr', rfl⟩
            · exact .inr (.inr (.inr (.inl ⟨lit, b, u, hi, hr, hlit, hb, hu, rfl⟩)))
            · exact .inr (.inr (.inr (.inr (.inl ⟨lit, b, r, hi, hr, hlit, hb, hr', rfl⟩))))

/-- A step of a core that executes is the bundle it fetches. -/
theorem step_bundle {s : State} {b : Bundle} (hr : Ready s) (hf : Fetches s b) : step s = runBundle b s := by
  obtain ⟨lit, h1, h2⟩ := hf
  unfold step machineStep runningStep
  rw [hr.noFault]
  simp only [hr.inRun, hr.running, if_true, h1, h2]

/-- The slots of the schedule are the slots of the bundle in the processing order. -/
theorem schedule_slots (b : Bundle) : (schedule b).map Prod.fst = b.allSlots := by
  simp [schedule, engineSlots, Bundle.allSlots, Engine.order, List.zipIdx_map_fst]

/-- What is pending after one slot more. -/
def afterSlot (s : State) (p : Pending) (x : Instr × Nat) : Pending :=
  Pending.join { p with slot := x.2 } (slotEffect x.1 s) x.1.isStop

/-- A slot that answers at the start of the cycle answers after any other slots, and adds its own effect. -/
theorem exec_afterSlot {s : State} {x : Instr × Nat} (p : Pending) (h : ∃ t, exec x.1 s.beginCycle = .next t) :
    exec x.1 (State.atSlot { s with pending := p } x.2) = .next { s with pending := afterSlot s p x } := by
  obtain ⟨t, ht⟩ := h
  rcases exec_joins x.1 s { p with slot := x.2 } with ⟨q, hq, hq'⟩ | ⟨r, r', hr, -⟩
  · have : slotEffect x.1 s = q := by unfold slotEffect; rw [hq]
    rw [afterSlot, this]
    exact hq'
  · rw [hr] at ht; cases ht

/-- If every slot answers at the start of the cycle, the evaluation answers, with the effects of all of them. -/
theorem runSlots_all (s : State) (slots : List (Instr × Nat))
    (h : ∀ x ∈ slots, ∃ t, exec x.1 s.beginCycle = .next t) (p : Pending) :
    runSlots slots { s with pending := p } = .next { s with pending := slots.foldl (afterSlot s) p } := by
  induction slots generalizing p with
  | nil => rfl
  | cons x rest ih =>
    unfold runSlots
    rw [exec_afterSlot p (h x (by simp))]
    exact ih (fun y hy => h y (by simp [hy])) _

/-- If one of them does not, the evaluation faults. -/
theorem runSlots_fault (s : State) (slots : List (Instr × Nat))
    (h : ∃ x ∈ slots, ∀ t, exec x.1 s.beginCycle ≠ .next t) (p : Pending) :
    ∃ r, runSlots slots { s with pending := p } = .fault r := by
  induction slots generalizing p with
  | nil => simp at h
  | cons x rest ih =>
    unfold runSlots
    by_cases hx : ∃ t, exec x.1 s.beginCycle = .next t
    · rw [exec_afterSlot p hx]
      refine ih ?_ _
      obtain ⟨y, hy, hn⟩ := h
      rcases List.mem_cons.1 hy with rfl | hy
      · obtain ⟨t, ht⟩ := hx; exact absurd ht (hn t)
      · exact ⟨y, hy, hn⟩
    · rcases exec_joins x.1 s { p with slot := x.2 } with ⟨q, hq, -⟩ | ⟨r, r', -, hr'⟩
      · exact absurd ⟨_, hq⟩ hx
      · have : exec x.1 (State.atSlot { s with pending := p } x.2) = .fault r' := hr'
        rw [this]
        exact ⟨r', rfl⟩

/-- What the host's turn can do: nothing, or one call of `run()`. -/
theorem hostTurn_cases (s : State) :
    hostTurn s = s ∨
    (∃ n, s.runCalls = n + 1 ∧ s.runState = .stopped ∧ hostTurn s = { s with runCalls := n }) ∨
    (∃ n, s.runCalls = n + 1 ∧ s.runState ≠ .stopped ∧
      hostTurn s = { s with runState := .running, inRun := true, runCalls := n }) := by
  unfold hostTurn
  split
  case h_1 => exact .inl rfl
  case h_2 n hn =>
    refine .inr ?_
    cases hr : s.runState with
    | stopped => exact .inl ⟨n, hn, by simp, by simp [enterRun, hr]⟩
    | running => exact .inr ⟨n, hn, by simp, by simp [enterRun, hr]⟩
    | paused => exact .inr ⟨n, hn, by simp, by simp [enterRun, hr]⟩

end Sys2Proof.Machine
end

