-- ==== Sys2Proof/Laws/Memory.lean ====
section
/-! SUPPORT. The laws of memory and of the scratch space: a read after a write to the same place gives the value written, a write
leaves every other place alone, and every memory operation keeps the canonical form. -/

namespace Sys2Proof.Machine

/-! ### Reading -/

/-- In a sorted memory an address below every listed one is not listed. -/
theorem Mem.read_below {m : Mem} {a : Nat} (h : ∀ p ∈ m, a < p.1) : m.read a = Mem.unlisted := by
  induction m with
  | nil => rfl
  | cons p rest ih =>
    have hp : a ≠ p.1 := Nat.ne_of_lt (h p (by simp))
    simp only [Mem.read, hp, if_false]
    exact ih (fun q hq => h q (by simp [hq]))

/-- A read after a write: the value written at that address, the old word everywhere else. -/
theorem Mem.read_write {m : Mem} (h : Mem.wf m) (a b : Nat) (v : Word) :
    (m.write a v).read b = if b = a then v else m.read b := by
  induction m with
  | nil => by_cases hv : v = Mem.unlisted <;> by_cases hb : b = a <;> simp_all [Mem.write, Mem.read]
  | cons p rest ih =>
    obtain ⟨c, w⟩ := p
    have hrest : Mem.wf rest := ⟨h.1.of_cons, fun q hq => h.2 q (by simp [hq])⟩
    have hc : ∀ q ∈ rest, c < q.1 := (List.pairwise_cons.1 h.1).1
    have ih := ih hrest
    rcases Nat.lt_trichotomy a c with hac | rfl | hac
    · have hlow : ∀ q ∈ (c, w) :: rest, a < q.1 := by
        intro q hq
        rcases List.mem_cons.1 hq with rfl | hq
        · exact hac
        · exact lt_trans hac (hc q hq)
      by_cases hv : v = Mem.unlisted
      · by_cases hb : b = a
        · subst hb
          simp only [Mem.write, hac, if_true, hv]
          exact Mem.read_below hlow
        · simp [Mem.write, hac, hv, hb]
      · by_cases hb : b = a <;> simp [Mem.write, Mem.read, hac, hv, hb]
    · by_cases hv : v = Mem.unlisted
      · by_cases hb : b = a
        · subst hb
          simp only [Mem.write, lt_irrefl, if_false, if_true, hv]
          exact Mem.read_below hc
        · simp [Mem.write, Mem.read, hv, hb]
      · by_cases hb : b = a <;> simp [Mem.write, Mem.read, hv, hb]
    · have h1 : ¬ a < c := by omega
      have h2 : a ≠ c := by omega
      by_cases hb : b = c
      · subst hb
        have h3 : b ≠ a := by omega
        simp [Mem.write, Mem.read, h1, h2, h3]
      · simp only [Mem.write, Mem.read, h1, h2, hb, if_false]
        exact ih

/-! ### The canonical form -/

/-- Every entry after a write is the new one or an old one. -/
theorem Mem.mem_write {m : Mem} {a : Nat} {v : Word} {p : Nat × Word} (h : p ∈ m.write a v) :
    p = (a, v) ∧ v ≠ Mem.unlisted ∨ p ∈ m := by
  induction m with
  | nil =>
    by_cases hv : v = Mem.unlisted <;> simp_all [Mem.write]
  | cons q rest ih =>
    obtain ⟨c, w⟩ := q
    simp only [Mem.write] at h
    split_ifs at h <;> simp only [List.mem_cons] at h ⊢ <;> tauto

/-- A write keeps the canonical form. -/
theorem Mem.wf_write {m : Mem} (h : Mem.wf m) (a : Nat) (v : Word) : Mem.wf (m.write a v) := by
  refine ⟨?_, fun p hp => ?_⟩
  · induction m with
    | nil => by_cases hv : v = Mem.unlisted <;> simp [Mem.write, hv]
    | cons q rest ih =>
      obtain ⟨c, w⟩ := q
      have hrest : Mem.wf rest := ⟨h.1.of_cons, fun q hq => h.2 q (by simp [hq])⟩
      have hc : ∀ q ∈ rest, c < q.1 := (List.pairwise_cons.1 h.1).1
      simp only [Mem.write]
      split_ifs with h1 h2 h3 h4
      · exact h.1
      · refine List.pairwise_cons.2 ⟨fun q hq => ?_, h.1⟩
        rcases List.mem_cons.1 hq with rfl | hq
        · exact h1
        · exact lt_trans h1 (hc q hq)
      · exact hrest.1
      · subst h3
        exact List.pairwise_cons.2 ⟨hc, hrest.1⟩
      · refine List.pairwise_cons.2 ⟨fun q hq => ?_, ih hrest⟩
        rcases Mem.mem_write hq with ⟨rfl, -⟩ | hq
        · show c < a
          omega
        · exact hc q hq
  · rcases Mem.mem_write hp with ⟨rfl, hv⟩ | hp
    · exact hv
    · exact h.2 p hp

/-- A write to an existing address lists existing addresses only. -/
theorem Mem.within_write {m : Mem} {n a : Nat} (h : Mem.within m n) (ha : a < n) (v : Word) :
    Mem.within (m.write a v) n := by
  intro p hp
  rcases Mem.mem_write hp with ⟨rfl, -⟩ | hp
  · exact ha
  · exact h p hp

/-- Applying pending writes keeps the canonical form. -/
theorem applyMem_wf {m : Mem} (h : Mem.wf m) (ws : List (Nat × Word)) : Mem.wf (applyMem m ws) := by
  induction ws generalizing m with
  | nil => exact h
  | cons w ws ih => exact ih (Mem.wf_write h w.1 w.2)

/-- Applying pending writes to existing addresses lists existing addresses only. -/
theorem applyMem_within {m : Mem} {n : Nat} (h : Mem.within m n) (ws : List (Nat × Word)) (hws : ∀ w ∈ ws, w.1 < n) :
    Mem.within (applyMem m ws) n := by
  induction ws generalizing m with
  | nil => exact h
  | cons w ws ih =>
    exact ih (Mem.within_write h (hws w (by simp)) w.2) (fun w' hw' => hws w' (by simp [hw']))

/-- The memory of a launch's image, and of reset, in canonical form. -/
theorem reset_mem_wf : Mem.wf State.reset.mem := by decide

/-! ### Pending writes, one at a time -/

@[simp] theorem applyMem_nil (m : Mem) : applyMem m [] = m := rfl

@[simp] theorem applyMem_cons (m : Mem) (w : Nat × Word) (ws : List (Nat × Word)) :
    applyMem m (w :: ws) = applyMem (m.write w.1 w.2) ws := rfl

@[simp] theorem applyScratch_nil (x : Vector Word scratchSize) : applyScratch x [] = x := rfl

@[simp] theorem applyScratch_cons (x : Vector Word scratchSize) (w : Nat × Word) (ws : List (Nat × Word)) :
    applyScratch x (w :: ws) = applyScratch (x.setIfInBounds w.1 w.2) ws := rfl

theorem applyScratch_append (x : Vector Word scratchSize) (ws ws' : List (Nat × Word)) :
    applyScratch x (ws ++ ws') = applyScratch (applyScratch x ws) ws' := by
  simp [applyScratch, List.foldl_append]

theorem applyMem_append (m : Mem) (ws ws' : List (Nat × Word)) :
    applyMem m (ws ++ ws') = applyMem (applyMem m ws) ws' := by
  simp [applyMem, List.foldl_append]

/-- One write to the scratch space: the cell written if it exists, the old word everywhere else. -/
theorem scratch_set (x : Vector Word scratchSize) (n a : Nat) (v : Word) :
    ((x.setIfInBounds n v)[a]?).getD 0 = if a = n ∧ a < scratchSize then v else (x[a]?).getD 0 := by
  by_cases ha : a < scratchSize
  · rw [Vector.getElem?_eq_getElem ha, Vector.getElem?_eq_getElem ha, Vector.getElem_setIfInBounds ha]
    by_cases hn : n = a
    · subst hn; simp [ha]
    · simp [hn, Ne.symm hn]
  · simp [ha]

/-! ### Pending writes, all at once -/

/-- Memory after a list of writes: the last value written to the address, or the old word. -/
theorem Mem.read_applyMem (ws : List (Nat × Word)) {m : Mem} (h : Mem.wf m) (a : Nat) :
    Mem.read (applyMem m ws) a = (lastWrite ws a).getD (m.read a) := by
  induction ws using List.reverseRecOn with
  | nil => rfl
  | append_singleton ws w ih =>
    rw [applyMem_append, applyMem_cons, applyMem_nil, Mem.read_write (applyMem_wf h ws), ih]
    unfold lastWrite
    by_cases hw : a = w.1
    · simp [hw, List.filter_append]
    · have : (w.1 == a) = false := by simpa using fun e => hw e.symm
      simp [hw, List.filter_append, this]

/-- The scratch space after a list of writes: the last value written to the cell, or the old word. -/
theorem read_applyScratch (ws : List (Nat × Word)) (x : Vector Word scratchSize) (a : Nat) (ha : a < 1536) :
    ((applyScratch x ws)[a]?).getD 0 = (lastWrite ws a).getD ((x[a]?).getD 0) := by
  induction ws using List.reverseRecOn with
  | nil => rfl
  | append_singleton ws w ih =>
    rw [applyScratch_append, applyScratch_cons, applyScratch_nil, scratch_set, ih]
    unfold lastWrite
    by_cases hw : a = w.1
    · subst hw; simp [List.filter_append, scratchSize, ha]
    · have : (w.1 == a) = false := by simpa using fun e => hw e.symm
      simp [hw, List.filter_append, this]

/-- One write to memory, in canonical form or not, leaves every other address alone. -/
theorem Mem.read_write_other (m : Mem) {a b : Nat} (h : b ≠ a) (v : Word) : (m.write a v).read b = m.read b := by
  induction m with
  | nil => simp only [Mem.write]; split <;> simp [Mem.read, h]
  | cons c rest ih =>
    obtain ⟨c, w⟩ := c
    simp only [Mem.write]
    split
    · split <;> simp [Mem.read, h]
    · split
      case isTrue e => subst e; split <;> simp [Mem.read, h]
      case isFalse => simp [Mem.read, ih]

/-- Writes to other addresses leave an address alone. -/
theorem Mem.read_applyMem_other (ws : List (Nat × Word)) (m : Mem) (a : Nat) (h : a ∉ ws.map Prod.fst) :
    Mem.read (applyMem m ws) a = m.read a := by
  induction ws generalizing m with
  | nil => rfl
  | cons w ws ih =>
    simp only [List.map_cons, List.mem_cons, not_or] at h
    rw [applyMem_cons, ih _ h.2, Mem.read_write_other m h.1]

/-- Writes to other cells leave a cell alone. -/
theorem read_applyScratch_other (ws : List (Nat × Word)) (x : Vector Word scratchSize) (a : Nat)
    (h : a ∉ ws.map Prod.fst) : ((applyScratch x ws)[a]?).getD 0 = (x[a]?).getD 0 := by
  induction ws generalizing x with
  | nil => rfl
  | cons w ws ih =>
    simp only [List.map_cons, List.mem_cons, not_or] at h
    rw [applyScratch_cons, ih _ h.2, scratch_set, if_neg (fun e => h.1 e.1)]

end Sys2Proof.Machine
end

