-- ==== Sys2Proof/Laws/PerInstr.lean ====
section
/-! SUPPORT. The family of statements made per instruction: an operation is selected by the pair of engine and name (30_encoding.md
R88), so the tuple of an operation under another engine's key is never that operation. -/

namespace Sys2Proof.Laws.EngineSelects

/-- Under a key that is not its engine's, the tuple of an operation does not decode to it. -/
def Statement (i : Instr) : Prop := ∀ e : Engine, e ≠ i.engine → decodeSlot e (encodeSlot i) ≠ .ok i

theorem aluAdd (dest a1 a2 : Int) : Statement (.aluAdd dest a1 a2) := fun _ he => decodeSlot_other_engine he
theorem aluSub (dest a1 a2 : Int) : Statement (.aluSub dest a1 a2) := fun _ he => decodeSlot_other_engine he
theorem aluMul (dest a1 a2 : Int) : Statement (.aluMul dest a1 a2) := fun _ he => decodeSlot_other_engine he
theorem aluDiv (dest a1 a2 : Int) : Statement (.aluDiv dest a1 a2) := fun _ he => decodeSlot_other_engine he
theorem aluCdiv (dest a1 a2 : Int) : Statement (.aluCdiv dest a1 a2) := fun _ he => decodeSlot_other_engine he
theorem aluXor (dest a1 a2 : Int) : Statement (.aluXor dest a1 a2) := fun _ he => decodeSlot_other_engine he
theorem aluAnd (dest a1 a2 : Int) : Statement (.aluAnd dest a1 a2) := fun _ he => decodeSlot_other_engine he
theorem aluOr (dest a1 a2 : Int) : Statement (.aluOr dest a1 a2) := fun _ he => decodeSlot_other_engine he
theorem aluShl (dest a1 a2 : Int) : Statement (.aluShl dest a1 a2) := fun _ he => decodeSlot_other_engine he
theorem aluShr (dest a1 a2 : Int) : Statement (.aluShr dest a1 a2) := fun _ he => decodeSlot_other_engine he
theorem aluMod (dest a1 a2 : Int) : Statement (.aluMod dest a1 a2) := fun _ he => decodeSlot_other_engine he
theorem aluLt (dest a1 a2 : Int) : Statement (.aluLt dest a1 a2) := fun _ he => decodeSlot_other_engine he
theorem aluEq (dest a1 a2 : Int) : Statement (.aluEq dest a1 a2) := fun _ he => decodeSlot_other_engine he
theorem valuAdd (dest a1 a2 : Int) : Statement (.valuAdd dest a1 a2) := fun _ he => decodeSlot_other_engine he
theorem valuSub (dest a1 a2 : Int) : Statement (.valuSub dest a1 a2) := fun _ he => decodeSlot_other_engine he
theorem valuMul (dest a1 a2 : Int) : Statement (.valuMul dest a1 a2) := fun _ he => decodeSlot_other_engine he
theorem valuDiv (dest a1 a2 : Int) : Statement (.valuDiv dest a1 a2) := fun _ he => decodeSlot_other_engine he
theorem valuCdiv (dest a1 a2 : Int) : Statement (.valuCdiv dest a1 a2) := fun _ he => decodeSlot_other_engine he
theorem valuXor (dest a1 a2 : Int) : Statement (.valuXor dest a1 a2) := fun _ he => decodeSlot_other_engine he
theorem valuAnd (dest a1 a2 : Int) : Statement (.valuAnd dest a1 a2) := fun _ he => decodeSlot_other_engine he
theorem valuOr (dest a1 a2 : Int) : Statement (.valuOr dest a1 a2) := fun _ he => decodeSlot_other_engine he
theorem valuShl (dest a1 a2 : Int) : Statement (.valuShl dest a1 a2) := fun _ he => decodeSlot_other_engine he
theorem valuShr (dest a1 a2 : Int) : Statement (.valuShr dest a1 a2) := fun _ he => decodeSlot_other_engine he
theorem valuMod (dest a1 a2 : Int) : Statement (.valuMod dest a1 a2) := fun _ he => decodeSlot_other_engine he
theorem valuLt (dest a1 a2 : Int) : Statement (.valuLt dest a1 a2) := fun _ he => decodeSlot_other_engine he
theorem valuEq (dest a1 a2 : Int) : Statement (.valuEq dest a1 a2) := fun _ he => decodeSlot_other_engine he
theorem vbroadcast (dest src : Int) : Statement (.vbroadcast dest src) := fun _ he => decodeSlot_other_engine he
theorem multiplyAdd (dest a b c : Int) : Statement (.multiplyAdd dest a b c) := fun _ he => decodeSlot_other_engine he
theorem load (dest addr : Int) : Statement (.load dest addr) := fun _ he => decodeSlot_other_engine he
theorem loadOffset (dest addr offset : Int) : Statement (.loadOffset dest addr offset) := fun _ he => decodeSlot_other_engine he
theorem vload (dest addr : Int) : Statement (.vload dest addr) := fun _ he => decodeSlot_other_engine he
theorem const (dest val : Int) : Statement (.const dest val) := fun _ he => decodeSlot_other_engine he
theorem store (addr src : Int) : Statement (.store addr src) := fun _ he => decodeSlot_other_engine he
theorem vstore (addr src : Int) : Statement (.vstore addr src) := fun _ he => decodeSlot_other_engine he
theorem select (dest cond a b : Int) : Statement (.select dest cond a b) := fun _ he => decodeSlot_other_engine he
theorem vselect (dest cond a b : Int) : Statement (.vselect dest cond a b) := fun _ he => decodeSlot_other_engine he
theorem addImm (dest a imm : Int) : Statement (.addImm dest a imm) := fun _ he => decodeSlot_other_engine he
theorem halt : Statement (.halt) := fun _ he => decodeSlot_other_engine he
theorem pause : Statement (.pause) := fun _ he => decodeSlot_other_engine he
theorem traceWrite (val : Int) : Statement (.traceWrite val) := fun _ he => decodeSlot_other_engine he
theorem condJump (cond addr : Int) : Statement (.condJump cond addr) := fun _ he => decodeSlot_other_engine he
theorem condJumpRel (cond offset : Int) : Statement (.condJumpRel cond offset) := fun _ he => decodeSlot_other_engine he
theorem jump (addr : Int) : Statement (.jump addr) := fun _ he => decodeSlot_other_engine he
theorem jumpIndirect (addr : Int) : Statement (.jumpIndirect addr) := fun _ he => decodeSlot_other_engine he
theorem coreid (dest : Int) : Statement (.coreid dest) := fun _ he => decodeSlot_other_engine he
theorem compare (loc : Int) (key : Key) : Statement (.compare loc key) := fun _ he => decodeSlot_other_engine he
theorem vcompare (loc : Int) (keys : List Key) : Statement (.vcompare loc keys) := fun _ he => decodeSlot_other_engine he

end Sys2Proof.Laws.EngineSelects
end

