-- ==== Sys2Proof/Tests/Slice0.lean ====
section
/-! SUPPORT. Tests of the model on fixed values, and for every statement with hypotheses a state and operands that meet them. The
expected results are those of 95_test_vectors.md, whose vector is named at each test, or follow from the rule named. -/

namespace Sys2Proof.Tests

open Sys2Proof.Machine

-- One theorem after the other: a thread for each would ask for more memory than a check has.
set_option Elab.async false

/-! ## Helpers -/

/-- A bundle's text, written without its braces. -/
def txt (s : String) : Text := inBraces (ascii s)

/-- A slot's tuple with integer operands. -/
def tuple (name : String) (fields : List Int) : Py := slotTuple name (fields.map .int)

/-- The eight keys 0 to 7, as program P2 writes them. -/
def keys8 : List Key := [.int 0, .int 1, .int 2, .int 3, .int 4, .int 5, .int 6, .int 7]

/-- Eight words at consecutive places. -/
def row (base : Nat) (ws : List Nat) : List (Nat × Nat) := ws.zipIdx.map (fun p => (base + p.2, p.1))

def words (l : List (Nat × Nat)) : List (Nat × Word) := l.map (fun p => (p.1, Word.ofNatMod p.2))

/-- A core that executes, with the given cells and memory words; `MEM_SIZE` is 128, `ENABLE_DEBUG` is true and the trace
table is the one of T11 and T2, with integer keys. -/
def st (cells mem : List (Nat × Nat)) : State :=
  { State.ofLaunch
      { Params.bare with
        memSize := 128
        enableDebug := true
        valueTrace := [(.str (ascii "k0"), 5), (.str (ascii "big"), 4294967296), (.int 0, 0), (.int 1, 0), (.int 2, 0),
          (.int 3, 0), (.int 4, 0), (.int 5, 0), (.int 6, 0), (.int 7, 0)] }
      (applyMem [] (words mem)) 0 with
    scratch := applyScratch (Vector.replicate scratchSize 0) (words cells)
    inRun := true }

/-- A core about to execute one bundle at `pc` 0. -/
def at0 (b : Bundle) (cells mem : List (Nat × Nat)) : State :=
  let s := st cells mem
  { s with params := { s.params with program := [encodeBundle b] } }

/-- A core at `pc` 7 of a program of 20 bundles (T8). -/
def at7 (i : Instr) (cells : List (Nat × Nat)) : State :=
  let s := st cells []
  { s with
    params := { s.params with
      program := List.replicate 7 (.dict .nil) ++ encodeBundle (Bundle.single i) :: List.replicate 12 (.dict .nil) }
    pc := 7 }

/-- Some cells after a slot that answers and the commit of its bundle. -/
def cellsOf (o : Outcome) (cells : List Nat) : Option (List Nat) :=
  match o with
  | .next t => some (cells.map (fun a => ((t.commit true).x (a : Int)).toNat))
  | _ => none

/-- Some memory words after a slot that answers and the commit of its bundle. -/
def memOf (o : Outcome) (addrs : List Nat) : Option (List Nat) :=
  match o with
  | .next t => some (addrs.map (fun a => ((t.commit true).memAt a).toNat))
  | _ => none

def faultOf (o : Outcome) : Option Fault :=
  match o with
  | .fault r => some r
  | _ => none

/-- Whether an outcome is a next state with a property. -/
def answers (o : Outcome) (p : State → Bool) : Bool :=
  match o with
  | .next t => p t
  | _ => false

theorem exists_of_answers {o : Outcome} {p : State → Bool} (h : answers o p = true) : ∃ t, o = .next t ∧ p t = true := by
  cases o with
  | next t => exact ⟨t, rfl, h⟩
  | fault r => cases h
  | refused r => cases h

theorem next_of_answers {o : Outcome} (h : answers o (fun _ => true) = true) : ∃ t, o = .next t :=
  (exists_of_answers h).imp (fun _ ht => ht.1)

/-- An ALU operation on the two words of a row of T1: the word written to cell 3. -/
def t1 (f : Int → Int → Int → Instr) (a b : Nat) : Option (List Nat) := cellsOf (exec (f 3 1 2) (st [(1, a), (2, b)] [])) [3]

/-- A VALU operation on two vectors, as in T2: the 8 cells of the destination. -/
def t2 (f : Int → Int → Int → Instr) (a b : List Nat) : Option (List Nat) :=
  cellsOf (exec (f 32 16 24) (st (row 16 a ++ row 24 b) [])) [32, 33, 34, 35, 36, 37, 38, 39]

/-- The first vector of T2. -/
def vecA : List Nat := [7, 8, 9, 0, 1, 2, 3, 4294967295]

/-! ## Names (30_encoding.md R81, R88) -/

theorem test_engine_names : Engine.order.map Engine.key =
    [ascii "alu", ascii "valu", ascii "load", ascii "store", ascii "flow", ascii "debug"] := by decide

theorem test_alu_names : (opMap .alu).map Prod.fst = [ascii "+", ascii "-", ascii "*", ascii "//", ascii "cdiv",
    ascii "^", ascii "&", ascii "|", ascii "<<", ascii ">>", ascii "%", ascii "<", ascii "=="] := by decide

theorem test_valu_names : (opMap .valu).map Prod.fst = [ascii "+", ascii "-", ascii "*", ascii "//", ascii "cdiv",
    ascii "^", ascii "&", ascii "|", ascii "<<", ascii ">>", ascii "%", ascii "<", ascii "==", ascii "vbroadcast",
    ascii "multiply_add"] := by decide

theorem test_load_names : (opMap .load).map Prod.fst =
    [ascii "load", ascii "load_offset", ascii "vload", ascii "const"] := by decide

theorem test_store_names : (opMap .store).map Prod.fst = [ascii "store", ascii "vstore"] := by decide

theorem test_flow_names : (opMap .flow).map Prod.fst = [ascii "select", ascii "vselect", ascii "add_imm", ascii "halt",
    ascii "pause", ascii "trace_write", ascii "cond_jump", ascii "cond_jump_rel", ascii "jump", ascii "jump_indirect",
    ascii "coreid"] := by decide

theorem test_debug_names : (opMap .debug).map Prod.fst = [ascii "compare", ascii "vcompare"] := by decide

/-! ## Decoding, from the tuples of 30_encoding.md R84 and R88 -/

theorem test_decode_alu :
    decodeSlot .alu (tuple "+" [10, 11, 12]) = .ok (.aluAdd 10 11 12) ∧
    decodeSlot .alu (tuple "-" [10, 11, 12]) = .ok (.aluSub 10 11 12) ∧
    decodeSlot .alu (tuple "*" [10, 11, 12]) = .ok (.aluMul 10 11 12) ∧
    decodeSlot .alu (tuple "//" [10, 11, 12]) = .ok (.aluDiv 10 11 12) ∧
    decodeSlot .alu (tuple "cdiv" [10, 11, 12]) = .ok (.aluCdiv 10 11 12) ∧
    decodeSlot .alu (tuple "^" [10, 11, 12]) = .ok (.aluXor 10 11 12) ∧
    decodeSlot .alu (tuple "&" [10, 11, 12]) = .ok (.aluAnd 10 11 12) ∧
    decodeSlot .alu (tuple "|" [10, 11, 12]) = .ok (.aluOr 10 11 12) ∧
    decodeSlot .alu (tuple "<<" [10, 11, 12]) = .ok (.aluShl 10 11 12) ∧
    decodeSlot .alu (tuple ">>" [10, 11, 12]) = .ok (.aluShr 10 11 12) ∧
    decodeSlot .alu (tuple "%" [10, 11, 12]) = .ok (.aluMod 10 11 12) ∧
    decodeSlot .alu (tuple "<" [10, 11, 12]) = .ok (.aluLt 10 11 12) ∧
    decodeSlot .alu (tuple "==" [10, 11, 12]) = .ok (.aluEq 10 11 12) := by decide +kernel

theorem test_decode_valu :
    decodeSlot .valu (tuple "+" [32, 16, 24]) = .ok (.valuAdd 32 16 24) ∧
    decodeSlot .valu (tuple "-" [32, 16, 24]) = .ok (.valuSub 32 16 24) ∧
    decodeSlot .valu (tuple "*" [32, 16, 24]) = .ok (.valuMul 32 16 24) ∧
    decodeSlot .valu (tuple "//" [32, 16, 24]) = .ok (.valuDiv 32 16 24) ∧
    decodeSlot .valu (tuple "cdiv" [32, 16, 24]) = .ok (.valuCdiv 32 16 24) ∧
    decodeSlot .valu (tuple "^" [32, 16, 24]) = .ok (.valuXor 32 16 24) ∧
    decodeSlot .valu (tuple "&" [32, 16, 24]) = .ok (.valuAnd 32 16 24) ∧
    decodeSlot .valu (tuple "|" [32, 16, 24]) = .ok (.valuOr 32 16 24) ∧
    decodeSlot .valu (tuple "<<" [32, 16, 24]) = .ok (.valuShl 32 16 24) ∧
    decodeSlot .valu (tuple ">>" [32, 16, 24]) = .ok (.valuShr 32 16 24) ∧
    decodeSlot .valu (tuple "%" [32, 16, 24]) = .ok (.valuMod 32 16 24) ∧
    decodeSlot .valu (tuple "<" [32, 16, 24]) = .ok (.valuLt 32 16 24) ∧
    decodeSlot .valu (tuple "==" [32, 16, 24]) = .ok (.valuEq 32 16 24) ∧
    decodeSlot .valu (tuple "vbroadcast" [32, 20]) = .ok (.vbroadcast 32 20) ∧
    decodeSlot .valu (tuple "multiply_add" [40, 16, 24, 32]) = .ok (.multiplyAdd 40 16 24 32) := by decide +kernel

theorem test_decode_load_store :
    decodeSlot .load (tuple "load" [16, 17]) = .ok (.load 16 17) ∧
    decodeSlot .load (tuple "load_offset" [40, 48, 3]) = .ok (.loadOffset 40 48 3) ∧
    decodeSlot .load (tuple "vload" [24, 17]) = .ok (.vload 24 17) ∧
    decodeSlot .load (tuple "const" [5, -4294967297]) = .ok (.const 5 (-4294967297)) ∧
    decodeSlot .store (tuple "store" [17, 16]) = .ok (.store 17 16) ∧
    decodeSlot .store (tuple "vstore" [17, 24]) = .ok (.vstore 17 24) := by decide +kernel

theorem test_decode_flow :
    decodeSlot .flow (tuple "select" [4, 1, 2, 3]) = .ok (.select 4 1 2 3) ∧
    decodeSlot .flow (tuple "vselect" [56, 48, 32, 40]) = .ok (.vselect 56 48 32 40) ∧
    decodeSlot .flow (tuple "add_imm" [8, 7, 12884901885]) = .ok (.addImm 8 7 12884901885) ∧
    decodeSlot .flow (tuple "halt" []) = .ok .halt ∧
    decodeSlot .flow (tuple "pause" []) = .ok .pause ∧
    decodeSlot .flow (tuple "trace_write" [9]) = .ok (.traceWrite 9) ∧
    decodeSlot .flow (tuple "cond_jump" [5, 2]) = .ok (.condJump 5 2) ∧
    decodeSlot .flow (tuple "cond_jump_rel" [5, -3]) = .ok (.condJumpRel 5 (-3)) ∧
    decodeSlot .flow (tuple "jump" [-1]) = .ok (.jump (-1)) ∧
    decodeSlot .flow (tuple "jump_indirect" [30]) = .ok (.jumpIndirect 30) ∧
    decodeSlot .flow (tuple "coreid" [6]) = .ok (.coreid 6) := by decide +kernel

theorem test_decode_debug :
    decodeSlot .debug (.tup (Pys.ofList [.str (ascii "compare"), .int 12, .str (ascii "k0")])) =
      .ok (.compare 12 (.str (ascii "k0"))) ∧
    decodeSlot .debug (.tup (Pys.ofList [.str (ascii "vcompare"), .int 40, .list (Pys.ofList keys8)])) =
      .ok (.vcompare 40 keys8) := by decide +kernel

/-- S1, the example bundle of the source, with its line breaks, and program P2's bundle 5. -/
theorem test_decode_text :
    decodeText (txt "\n \"valu\": [(\"*\", 4, 0, 0), (\"+\", 8, 4, 0)],\n \"load\": [(\"load\", 16, 17)],\n \"alu\": [(\"+\", 100, 101, 102)]\n") =
      .ok { Bundle.empty with
        alu := some [.aluAdd 100 101 102], valu := some [.valuMul 4 0 0, .valuAdd 8 4 0], load := some [.load 16 17] } ∧
    decodeText (txt "\"valu\": [(\"<\", 48, 40, 32)], \"debug\": [(\"vcompare\", 40, [0,1,2,3,4,5,6,7])]") =
      .ok { Bundle.empty with valu := some [.valuLt 48 40 32], debug := some [.vcompare 40 keys8] } ∧
    decodeText (txt "") = .ok Bundle.empty ∧
    decodeText (txt "\"alu\": []") = .ok { Bundle.empty with alu := some [] } := by decide +kernel

/-- A word of the table: the characters of the text, the first in the lowest byte (log entry 8). -/
theorem test_table_word :
    decodeTableWord 200 786922017184641654977238090267079907386178353875925879300731 = some (.aluAdd 5 5 5) ∧
    textOfNat 25 786922017184641654977238090267079907386178353875925879300731 = txt "\"alu\": [(\"+\", 5, 5, 5)]" ∧
    decodeTableWord 16 0 = none := by decide +kernel

/-! ## Ill-formed terms (T10, 30_encoding.md R90), one for each check -/

theorem test_ill_keys_known : decodeText (txt "\"fpu\": []") = .error .keysKnown := by decide +kernel

theorem test_ill_keys_unique : decodeText (txt "\"alu\": [], \"alu\": []") = .error .keysUnique := by decide +kernel

theorem test_ill_bundle_is_dict : decodeText (ascii "[]") = .error .bundleIsDict := by decide +kernel

theorem test_ill_slots_are_lists :
    decodeText (txt "\"alu\": (\"+\", 1, 2, 3)") = .error .slotsAreLists ∧
    decodeText (txt "\"alu\": [7]") = .error .slotsAreLists := by decide +kernel

theorem test_ill_op_known :
    decodeText (txt "\"alu\": [(\"vbroadcast\", 8, 0)]") = .error .opKnown ∧
    decodeText (txt "\"flow\": [()]") = .error .opKnown := by decide +kernel

theorem test_ill_arity : decodeText (txt "\"alu\": [(\"+\", 1, 2)]") = .error .arity := by decide +kernel

theorem test_ill_operand_type :
    decodeText (txt "\"debug\": [(\"vcompare\", 0, [1,2,3])]") = .error .operandType ∧
    decodeText (txt "\"alu\": [(\"+\", \"a\", 1, 2)]") = .error .operandType := by decide +kernel

theorem test_ill_scratch_range :
    decodeText (txt "\"alu\": [(\"+\", 1536, 0, 0)]") = .error .scratchRange ∧
    decodeText (txt "\"alu\": [(\"+\", -1, 0, 0)]") = .error .scratchRange ∧
    decodeText (txt "\"valu\": [(\"+\", 1529, 0, 0)]") = .error .scratchRange ∧
    decodeText (txt "\"load\": [(\"load_offset\", 1530, 0, 7)]") = .error .scratchRange := by decide +kernel

theorem test_well_scratch_range :
    decodeText (txt "\"alu\": [(\"+\", 1535, 0, 0)]") = .ok (Bundle.single (.aluAdd 1535 0 0)) ∧
    decodeText (txt "\"valu\": [(\"+\", 1528, 0, 0)]") = .ok (Bundle.single (.valuAdd 1528 0 0)) ∧
    decodeText (txt "\"load\": [(\"load_offset\", 8, 8, -8)]") = .ok (Bundle.single (.loadOffset 8 8 (-8))) := by
  decide +kernel

/-- The bundle with every engine full (T10). -/
def fullBundle : Bundle where
  alu := some (List.replicate 12 (.aluAdd 1 2 3))
  valu := some (List.replicate 6 (.valuAdd 32 16 24))
  load := some [.const 4 1, .const 5 1]
  store := some [.store 6 7, .store 6 7]
  flow := some [.jump 0]
  debug := some (List.replicate 64 (.compare 1 (.int 0)))

theorem test_slot_limits :
    fullBundle.failedCheck = none ∧
    Bundle.failedCheck { Bundle.empty with alu := some (List.replicate 13 (.aluAdd 1 2 3)) } = some .slotLimit ∧
    Bundle.failedCheck { Bundle.empty with flow := some [.jump 0, .jump 0] } = some .slotLimit ∧
    Bundle.failedCheck { Bundle.empty with debug := some (List.replicate 65 (.compare 1 (.int 0))) } = some .slotLimit := by
  decide +kernel

/-- The checks of WellFormed refuse a term that breaks them. -/
theorem test_wellformed_smoke :
    Bundle.failedCheck { Bundle.empty with alu := some [.vbroadcast 8 0] } = some .opKnown ∧
    Bundle.failedCheck { Bundle.empty with debug := some [.vcompare 0 [.int 1]] } = some .operandType ∧
    Bundle.failedCheck { Bundle.empty with store := some [.vstore 0 1529] } = some .scratchRange ∧
    Instr.wellFormed (.compare 1536 (.int 0)) = false ∧ Instr.wellFormed (.select 0 0 0 (-1)) = false := by decide +kernel

/-! ## The ALU (T1) -/

theorem test_alu_add : t1 .aluAdd 4294967295 1 = some [0] ∧ t1 .aluAdd 305419896 252645135 = some [558065031] := by
  decide +kernel

theorem test_alu_sub : t1 .aluSub 0 1 = some [4294967295] ∧ t1 .aluSub 7 2 = some [5] := by decide +kernel

theorem test_alu_mul : t1 .aluMul 4294967295 4294967295 = some [1] ∧ t1 .aluMul 305419896 252645135 = some [992614664] := by
  decide +kernel

theorem test_alu_div : t1 .aluDiv 7 2 = some [3] ∧ t1 .aluDiv 4294967295 4294967294 = some [1] := by decide +kernel

theorem test_alu_cdiv : t1 .aluCdiv 7 2 = some [4] ∧ t1 .aluCdiv 4294967295 4294967294 = some [2] ∧ t1 .aluCdiv 0 1 = some [0] := by
  decide +kernel

theorem test_alu_xor : t1 .aluXor 305419896 252645135 = some [490428791] := by decide +kernel

theorem test_alu_and : t1 .aluAnd 305419896 252645135 = some [33818120] := by decide +kernel

theorem test_alu_or : t1 .aluOr 305419896 252645135 = some [524246911] := by decide +kernel

theorem test_alu_shl : t1 .aluShl 1 31 = some [2147483648] ∧ t1 .aluShl 1 32 = some [0] ∧ t1 .aluShl 5 4294967295 = some [0] := by
  decide +kernel

theorem test_alu_shr :
    t1 .aluShr 2147483648 31 = some [1] ∧ t1 .aluShr 2147483648 32 = some [0] ∧ t1 .aluShr 5 4294967295 = some [0] := by
  decide +kernel

theorem test_alu_mod : t1 .aluMod 4294967295 4 = some [3] ∧ t1 .aluMod 305419896 252645135 = some [52774761] := by decide +kernel

theorem test_alu_lt : t1 .aluLt 4294967295 1 = some [0] ∧ t1 .aluLt 0 1 = some [1] := by decide +kernel

theorem test_alu_eq : t1 .aluEq 0 0 = some [1] ∧ t1 .aluEq 1 0 = some [0] := by decide +kernel

theorem test_alu_divide_by_zero :
    faultOf (exec (.aluDiv 3 1 2) (st [(1, 1)] [])) = some (.divideByZero 0 .alu 0 none) ∧
    faultOf (exec (.aluCdiv 3 1 2) (st [(1, 1)] [])) = some (.divideByZero 0 .alu 0 none) ∧
    faultOf (exec (.aluMod 3 1 2) (st [] [])) = some (.divideByZero 0 .alu 0 none) := by decide +kernel

/-- Source and destination the same cell (T1, last lines). -/
theorem test_alu_same_cell :
    cellsOf (exec (.aluAdd 5 5 5) (st [(5, 21)] [])) [5] = some [42] ∧
    cellsOf (exec (.aluSub 5 5 5) (st [(5, 21)] [])) [5] = some [0] ∧
    cellsOf (exec (.aluEq 5 5 5) (st [(5, 21)] [])) [5] = some [1] := by decide +kernel

/-! ## The VALU (T2) -/

theorem test_valu_add : t2 .valuAdd vecA [1, 1, 1, 1, 1, 1, 1, 1] = some [8, 9, 10, 1, 2, 3, 4, 0] := by decide +kernel

theorem test_valu_sub :
    t2 .valuSub vecA [1, 9, 9, 1, 1, 2, 4, 0] = some [6, 4294967295, 0, 4294967295, 0, 0, 4294967295, 4294967295] := by
  decide +kernel

theorem test_valu_mul :
    t2 .valuMul vecA [65536, 2, 3, 4, 4294967295, 2147483648, 0, 4294967295] =
      some [458752, 16, 27, 0, 4294967295, 0, 0, 1] := by decide +kernel

theorem test_valu_div :
    t2 .valuDiv vecA [2, 2, 2, 2, 2, 2, 2, 2] = some [3, 4, 4, 0, 0, 1, 1, 2147483647] ∧
    faultOf (exec (.valuDiv 32 16 24) (st (row 16 vecA ++ row 24 [2, 2, 2, 0, 2, 2, 2, 2]) [])) =
      some (.divideByZero 0 .valu 0 (some 3)) := by decide +kernel

theorem test_valu_cdiv : t2 .valuCdiv vecA [2, 2, 2, 2, 2, 2, 2, 2] = some [4, 4, 5, 0, 1, 1, 2, 2147483648] := by
  decide +kernel

theorem test_valu_mod : t2 .valuMod vecA [3, 3, 3, 3, 3, 3, 3, 3] = some [1, 2, 0, 0, 1, 2, 0, 0] := by decide +kernel

theorem test_valu_xor :
    t2 .valuXor vecA [255, 255, 255, 255, 255, 255, 255, 255] = some [248, 247, 246, 255, 254, 253, 252, 4294967040] := by
  decide +kernel

theorem test_valu_and : t2 .valuAnd vecA [6, 6, 6, 6, 6, 6, 6, 6] = some [6, 0, 0, 0, 0, 2, 2, 6] := by decide +kernel

theorem test_valu_or : t2 .valuOr vecA [8, 8, 8, 8, 8, 8, 8, 8] = some [15, 8, 9, 8, 9, 10, 11, 4294967295] := by
  decide +kernel

theorem test_valu_lt : t2 .valuLt vecA [3, 3, 3, 3, 3, 3, 3, 3] = some [0, 0, 0, 1, 1, 1, 0, 0] := by decide +kernel

theorem test_valu_eq : t2 .valuEq vecA [7, 7, 9, 0, 0, 2, 2, 4294967295] = some [1, 0, 1, 1, 0, 1, 0, 1] := by
  decide +kernel

theorem test_valu_shl :
    t2 .valuShl [1, 1, 1, 1, 1, 1, 1, 1] [0, 1, 2, 3, 4, 31, 32, 33] = some [1, 2, 4, 8, 16, 2147483648, 0, 0] := by
  decide +kernel

theorem test_valu_shr :
    t2 .valuShr (List.replicate 8 2147483648) [0, 1, 4, 8, 16, 31, 32, 4294967295] =
      some [2147483648, 1073741824, 134217728, 8388608, 32768, 1, 0, 0] := by decide +kernel

/-- The source cell inside the destination. -/
theorem test_vbroadcast :
    cellsOf (exec (.vbroadcast 32 34) (st [(32, 1), (34, 5), (39, 8)] [])) [31, 32, 33, 34, 35, 36, 37, 38, 39, 40] =
      some [0, 5, 5, 5, 5, 5, 5, 5, 5, 0] := by decide +kernel

theorem test_multiply_add :
    cellsOf (exec (.multiplyAdd 40 16 24 32)
        (st (row 16 [1, 2, 3, 4, 65536, 4294967295, 0, 2147483648] ++ row 24 [10, 10, 10, 10, 65536, 4294967295, 5, 2] ++
          row 32 [5, 5, 5, 5, 7, 4294967295, 4294967295, 1]) []))
      [40, 41, 42, 43, 44, 45, 46, 47] = some [15, 25, 35, 45, 7, 0, 4294967295, 1] := by decide +kernel

/-- A destination that overlaps a source (T3). -/
theorem test_valu_overlap :
    cellsOf (exec (.valuAdd 1 0 0) (st (row 0 [1, 2, 3, 4, 5, 6, 7, 8] ++ [(8, 9)]) [])) [0, 1, 2, 3, 4, 5, 6, 7, 8] =
      some [1, 2, 4, 6, 8, 10, 12, 14, 16] := by decide +kernel

/-! ## Load (T5) and Store (T6) -/

/-- The memory of T5. -/
def memT5 : List (Nat × Nat) := row 100 [10, 11, 12, 13, 14, 15, 16, 17] ++ row 120 [1, 2, 3, 4, 5, 6, 7, 8]

theorem test_load :
    cellsOf (exec (.load 17 17) (st [(17, 100)] memT5)) [17] = some [10] ∧
    cellsOf (exec (.load 16 17) (st [(17, 127)] memT5)) [16] = some [8] ∧
    faultOf (exec (.load 16 17) (st [(17, 128)] memT5)) = some (.memOutOfRange 0 .load 0 128) := by decide +kernel

theorem test_load_offset :
    cellsOf (exec (.loadOffset 40 48 3) (st [(51, 103)] memT5)) [40, 43, 48] = some [0, 13, 0] ∧
    cellsOf (exec (.loadOffset 40 48 0) (st [(48, 101)] memT5)) [40] = some [11] := by decide +kernel

theorem test_vload :
    cellsOf (exec (.vload 24 26) (st [(26, 101)] memT5)) [24, 25, 26, 27, 28, 29, 30, 31] =
      some [11, 12, 13, 14, 15, 16, 17, 0] ∧
    cellsOf (exec (.vload 24 17) (st [(17, 120)] memT5)) [24, 31] = some [1, 8] := by decide +kernel

theorem test_vload_outside :
    faultOf (exec (.vload 24 17) (st [(17, 121)] memT5)) = some (.memOutOfRange 0 .load 0 128) ∧
    faultOf (exec (.vload 24 17) (st [(17, 4294967295)] memT5)) = some (.memOutOfRange 0 .load 0 4294967295) := by
  decide +kernel

theorem test_const :
    cellsOf (exec (.const 5 (-2)) (st [] [])) [5] = some [4294967294] ∧
    cellsOf (exec (.const 5 4294967301) (st [] [])) [5] = some [5] ∧
    cellsOf (exec (.const 5 (-4294967297)) (st [] [])) [5] = some [4294967295] := by decide +kernel

theorem test_store :
    memOf (exec (.store 17 16) (st [(17, 100), (16, 42)] [])) [99, 100, 101] = some [0, 42, 0] ∧
    memOf (exec (.store 17 17) (st [(17, 100)] [])) [100] = some [100] ∧
    faultOf (exec (.store 17 16) (st [(17, 128), (16, 42)] [])) = some (.memOutOfRange 0 .store 0 128) := by decide +kernel

theorem test_vstore :
    memOf (exec (.vstore 17 24) (st ((17, 120) :: row 24 [1, 2, 3, 4, 5, 6, 7, 8]) []))
      [119, 120, 121, 122, 123, 124, 125, 126, 127] = some [0, 1, 2, 3, 4, 5, 6, 7, 8] ∧
    faultOf (exec (.vstore 17 24) (st ((17, 121) :: row 24 [1, 2, 3, 4, 5, 6, 7, 8]) [])) =
      some (.memOutOfRange 0 .store 0 128) := by decide +kernel

/-- A write of 0 removes the entry: equal memories are equal data. -/
theorem test_memory_canonical :
    applyMem [] (words [(5, 1), (3, 2), (5, 0)]) = [(3, 2)] ∧ applyMem [] (words [(3, 2)]) = [(3, 2)] := by decide +kernel

/-! ## Flow (T7, T8, T9) -/

theorem test_select :
    cellsOf (exec (.select 4 1 2 3) (st [(1, 0), (2, 11), (3, 22)] [])) [4] = some [22] ∧
    cellsOf (exec (.select 1 1 2 3) (st [(1, 4294967295), (2, 11), (3, 22)] [])) [1] = some [11] := by decide +kernel

theorem test_vselect :
    cellsOf (exec (.vselect 56 48 32 40)
        (st (row 48 [1, 0, 2, 0, 0, 0, 0, 4294967295] ++ row 32 [10, 11, 12, 13, 14, 15, 16, 17] ++
          row 40 [20, 21, 22, 23, 24, 25, 26, 27]) [])) [56, 57, 58, 59, 60, 61, 62, 63] =
      some [10, 21, 12, 23, 24, 25, 26, 17] := by decide +kernel

theorem test_add_imm :
    cellsOf (exec (.addImm 8 7 2) (st [(7, 4294967295)] [])) [8] = some [1] ∧
    cellsOf (exec (.addImm 8 7 (-1)) (st [] [])) [8] = some [4294967295] ∧
    cellsOf (exec (.addImm 8 7 12884901885) (st [(7, 5)] [])) [8] = some [2] := by decide +kernel

theorem test_cond_jump :
    answers (step (at7 (.condJump 5 2) [(5, 1)])) (fun t => t.pc == 2) ∧
    answers (step (at7 (.condJump 5 2) [])) (fun t => t.pc == 8) ∧
    answers (step (at7 (.condJump 5 19) [(5, 4294967295)])) (fun t => t.pc == 19) := by decide +kernel

/-- `REL_BASE` 1, and 0 in the second line. -/
theorem test_cond_jump_rel :
    answers (step (at7 (.condJumpRel 5 (-3)) [(5, 1)])) (fun t => t.pc == 5) ∧
    answers (step (let s := at7 (.condJumpRel 5 (-3)) [(5, 1)]
      { s with params := { s.params with relBase := .zero } })) (fun t => t.pc == 4) ∧
    answers (step (at7 (.condJumpRel 5 (-3)) [])) (fun t => t.pc == 8) := by decide +kernel

theorem test_jump :
    answers (step (at7 (.jump 7) [])) (fun t => t.pc == 7) ∧
    answers (step (at7 (.jump (-1)) [])) (fun t => t.pc == -1 && t.cycle == 1 && t.fault == none) := by decide +kernel

theorem test_jump_indirect :
    answers (step (at7 (.jumpIndirect 30) [(30, 12)])) (fun t => t.pc == 12) ∧
    answers (step (at7 (.jumpIndirect 30) [(30, 4294967295)])) (fun t => t.pc == 4294967295) := by decide +kernel

theorem test_halt :
    answers (step (at0 { Bundle.empty with alu := some [.aluAdd 3 1 2], flow := some [.halt] } [(1, 4), (2, 5)] []))
      (fun t => t.x 3 == 9 && t.pc == 1 && t.cycle == 1 && t.runState == .stopped && !t.inRun) := by decide +kernel

theorem test_pause :
    answers (step (at0 { Bundle.empty with flow := some [.pause] } [] []))
      (fun t => t.pc == 1 && t.cycle == 1 && t.runState == .paused && !t.inRun) := by decide +kernel

/-- The word is that of the start of the cycle, not the one the same bundle writes. -/
theorem test_trace_write :
    answers (step (at0 { Bundle.empty with load := some [.const 9 78], flow := some [.traceWrite 9] } [(9, 77)] []))
      (fun t => t.traceBuf == [77] && t.x 9 == 78) := by decide +kernel

theorem test_coreid : cellsOf (exec (.coreid 6) (st [(6, 99)] [])) [6] = some [0] := by decide +kernel

/-! ## Debug (T11) -/

theorem test_compare :
    answers (step (at0 { Bundle.empty with load := some [.const 12 6], debug := some [.compare 12 (.str (ascii "k0"))] }
      [(12, 5)] [])) (fun t => t.fault == none && t.x 12 == 6 && t.cycle == 1) ∧
    faultOf (exec (.compare 13 (.str (ascii "k0"))) (st [(12, 5)] [])) =
      some (.debugAssertFailed 0 0 13 (.str (ascii "k0"))) ∧
    faultOf (exec (.compare 12 (.str (ascii "nokey"))) (st [] [])) = some (.debugKeyMissing 0 0 (.str (ascii "nokey"))) ∧
    faultOf (exec (.compare 12 (.str (ascii "big"))) (st [] [])) =
      some (.debugAssertFailed 0 0 12 (.str (ascii "big"))) := by decide +kernel

theorem test_vcompare :
    answers (exec (.vcompare 40 keys8) (st [] [])) (fun _ => true) ∧
    faultOf (exec (.vcompare 40 keys8) (st [(45, 3)] [])) = some (.debugAssertFailed 0 0 45 (.int 5)) := by decide +kernel

/-- A skipped Debug slot (T11, T12): the `pc` moves, no cycle is counted. -/
theorem test_debug_off :
    answers (step (let s := at0 { Bundle.empty with debug := some [.compare 13 (.str (ascii "k0"))] } [] []
      { s with params := { s.params with enableDebug := false } }))
      (fun t => t.pc == 1 && t.cycle == 0 && t.fault == none) := by decide +kernel

/-! ## Bundles (S1, T3, T4, T10, T12) -/

/-- S1: the second VALU slot reads the old words and wins on the cells both write. -/
theorem test_example_bundle :
    answers (step (at0
        { Bundle.empty with
          alu := some [.aluAdd 100 101 102], valu := some [.valuMul 4 0 0, .valuAdd 8 4 0], load := some [.load 16 17] }
        (row 0 [1, 2, 3, 4, 5, 6, 7, 8] ++ [(17, 100), (101, 7), (102, 4294967295)]) [(100, 42)]))
      (fun t => (List.range 17).map (fun a => (t.x (a : Int)).toNat) ==
        [1, 2, 3, 4, 1, 4, 9, 16, 6, 8, 10, 12, 5, 6, 7, 8, 42] && t.x 100 == 6 && t.pc == 1 && t.cycle == 1) := by
  decide +kernel

/-- T3: the swap. -/
theorem test_swap :
    answers (step (at0 { Bundle.empty with alu := some [.aluAdd 10 11 0, .aluAdd 11 10 0] } [(10, 111), (11, 222)] []))
      (fun t => t.x 10 == 222 && t.x 11 == 111) := by decide +kernel

/-- T4: valu after alu, load after both, flow last. -/
theorem test_last_engine_wins :
    answers (step (at0 { Bundle.empty with alu := some [.aluAdd 9 1 1], valu := some [.vbroadcast 8 1] } [(1, 5)] []))
      (fun t => t.x 9 == 5) ∧
    answers (step (at0 { Bundle.empty with alu := some [.aluAdd 9 1 1], load := some [.const 9 100] } [(1, 5)] []))
      (fun t => t.x 9 == 100) ∧
    answers (step (at0 { Bundle.empty with load := some [.const 9 1], flow := some [.addImm 9 1 1] } [(1, 5)] []))
      (fun t => t.x 9 == 6) := by decide +kernel

/-- T6, last row: the second slot wins where two stores overlap. -/
theorem test_two_stores :
    answers (step (at0 { Bundle.empty with store := some [.vstore 17 24, .vstore 18 32] }
        ([(17, 8), (18, 12)] ++ row 24 [1, 2, 3, 4, 5, 6, 7, 8] ++ row 32 [11, 12, 13, 14, 15, 16, 17, 18]) []))
      (fun t => [8, 9, 10, 11, 12, 13, 18, 19].map (fun a => (t.memAt a).toNat) == [1, 2, 3, 4, 11, 12, 17, 18]) := by
  decide +kernel

/-- T10: a fault discards the whole bundle. -/
theorem test_fault_discards :
    answers (step (let s := at0 { Bundle.empty with alu := some [.aluDiv 3 1 2], load := some [.const 9 1] } [(1, 8)] []
      { s with cycle := 10 }))
      (fun t => t.fault == some (.divideByZero 0 .alu 0 none) && t.x 9 == 0 && t.pc == 0 && t.cycle == 10 && !t.inRun) := by
  decide +kernel

/-- T12: which bundles count. -/
theorem test_cycle_counting :
    answers (step (at0 Bundle.empty [] [])) (fun t => t.cycle == 0 && t.pc == 1) ∧
    answers (step (at0 { Bundle.empty with debug := some [] } [] [])) (fun t => t.cycle == 0 && t.pc == 1) ∧
    answers (step (at0 { Bundle.empty with alu := some [] } [] [])) (fun t => t.cycle == 1 && t.pc == 1) ∧
    answers (step (at0 { Bundle.empty with flow := some [.jump 0] } [] [])) (fun t => t.cycle == 1 && t.pc == 0) := by
  decide +kernel

/-! ## The host (T9, T10) -/

/-- A core at the end of its program. -/
def atEnd (e : EndOfProgram) : State :=
  let s := st [] []
  { s with params := { s.params with program := [.dict .nil, .dict .nil, .dict .nil], endOfProgram := e }, pc := 3, cycle := 3 }

theorem test_end_of_program :
    answers (step (atEnd .fault)) (fun t => t.fault == some (.fetchOutOfRange 3) && t.pc == 3 && t.cycle == 3) ∧
    answers (step (atEnd .stop)) (fun t => t.fault == none && t.runState == .stopped && t.cycle == 3 && !t.inRun) := by
  decide +kernel

/-- A core that the host has not entered, with one call to come. -/
def waiting (r : RunState) : State := { State.reset with runState := r, runCalls := 1 }

theorem test_run_calls :
    answers (step (waiting .paused)) (fun t => t.runState == .running && t.inRun && t.runCalls == 0) ∧
    answers (step (waiting .stopped)) (fun t => t.runState == .stopped && !t.inRun && t.runCalls == 0) := by decide +kernel

/-- At reset the host has made no call, and nothing happens. -/
theorem test_reset_waits : step State.reset = .next State.reset := rfl

/-- A fault once recorded is what every later step answers (60_exceptions.md R205). -/
theorem test_faulted : faultOf (step { State.reset with fault := some (.fetchOutOfRange 3) }) = some (.fetchOutOfRange 3) := by
  decide +kernel

/-- The launch refuses a program with an ill-formed bundle, and an image with a word outside memory. -/
theorem test_launch_refuses :
    launch { Params.bare with program := [.dict .nil, .int 0] } [] 1 = .error (.illFormedProgram 1 .bundleIsDict) ∧
    launch { Params.bare with memSize := 1 } (imageOf [0, 7]) 1 = .error .imageDoesNotFit := ⟨rfl, rfl⟩

/-- A launch (10_state.md R38), seen by the host before its first `run()`. -/
theorem test_launch : launch Params.bare (imageOf [0, 7, 0]) 1 = .ok (State.ofLaunch Params.bare [(1, 7)] 1) ∧
    (hostView (State.ofLaunch Params.bare [(1, 7)] 1)).map (fun v => (v.mem, v.pc, v.cycle, v.runState, v.fault)) =
      some ([(1, 7)], 0, 0, .running, none) := ⟨rfl, rfl⟩

/-- The word of the table, placed in the reset state, is what the next step runs. -/
theorem test_fetch_word :
    answers (step (State.reset.withFetchWord 200 786922017184641654977238090267079907386178353875925879300731))
      (fun t => t.pc == 1 && t.cycle == 1 && t.fault == none) := by decide +kernel

/-! ## Witnesses: for every statement with hypotheses, values that meet them all -/

/-- The state of most witnesses about one slot: cells 0 to 3 hold 0, 7, 32 and 128. -/
def w : State := st [(1, 7), (2, 32), (3, 128), (4, 127), (5, 120)] [(127, 9)]

theorem witness_DecodeOfEncodedSlot :
    Instr.wellFormed (.loadOffset 1530 1530 5) = true ∧ Instr.wellFormed (.vcompare 1528 keys8) = true := by decide +kernel

theorem witness_SlotHasOneLiteral : decodeSlot .alu (tuple "+" [1535, 0, 1535]) = .ok (.aluAdd 1535 0 1535) := by
  decide +kernel

/-- The bounds of each kind of field, and for `load_offset` two sums at the bounds. -/
theorem witness_TuplesOfTheOperationMap :
    IsCell 0 ∧ IsCell 1535 ∧ IsBase 0 ∧ IsBase 1528 ∧ IsCell (1600 + -65) ∧ IsCell (65 + -65) ∧ keys8.length = 8 := by decide

theorem witness_DecodeOfEncodedBundle : fullBundle.wellFormed = true := by decide +kernel

theorem witness_DecodedBundlesMeetEveryCheck : decodeBundle (encodeBundle fullBundle) = .ok fullBundle := by decide +kernel

theorem witness_KeyOrderHasNoMeaning :
    List.Perm [(Py.str (ascii "alu"), Py.list .nil), (Py.str (ascii "load"), Py.list .nil)]
      [(Py.str (ascii "load"), Py.list .nil), (Py.str (ascii "alu"), Py.list .nil)] ∧
    decodeBundle (.dict (Kvs.ofList
      [(Py.str (ascii "alu"), Py.list .nil), (Py.str (ascii "load"), Py.list .nil)])) =
      .ok { Bundle.empty with alu := some [], load := some [] } := ⟨List.Perm.swap _ _ _, by decide +kernel⟩

theorem witness_TextOfLiteralReadsBack : Py.writable (encodeBundle fullBundle) = true := by decide +kernel

theorem witness_AluSumDifferenceProduct : IsCell 1535 ∧ IsCell 0 ∧ IsCell 0 := by decide

theorem witness_AluBitwise : IsCell 0 ∧ IsCell 1535 ∧ IsCell 1535 := by decide

theorem witness_AluShiftsTakeTheWholeCount : IsCell 1535 ∧ IsCell 1 ∧ IsCell 2 ∧ 32 ≤ (w.x 2).toNat := by decide +kernel

theorem witness_AluComparisons : IsCell 1535 ∧ IsCell 0 ∧ IsCell 1535 := by decide

theorem witness_AluDivisions : IsCell 1535 ∧ IsCell 0 ∧ IsCell 1 ∧ w.x 1 ≠ 0 := by decide +kernel

theorem witness_AluDivisionByZeroFaults : IsCell 1535 ∧ IsCell 1 ∧ IsCell 0 ∧ w.x 0 = 0 := by decide +kernel

theorem witness_ValuElementwise : IsBase 1528 ∧ IsBase 0 ∧ IsBase 1528 := by decide

/-- The divisors are the 8 words from cell 16 on, none of them 0. -/
theorem witness_ValuShiftsAndDivisionsAreAluPerLane :
    IsBase 1528 ∧ IsBase 0 ∧ IsBase 16 ∧
      ∀ k : Nat, k < 8 → (st (row 16 [1, 2, 3, 4, 5, 6, 7, 8]) []).x (16 + k) ≠ 0 := by decide +kernel

/-- The first divisor of 0 is in the last lane. -/
theorem witness_ValuDivisionByZeroFaults :
    IsBase 1528 ∧ IsBase 0 ∧ IsBase 16 ∧ (7 : Nat) < 8 ∧
      (st (row 16 [1, 2, 3, 4, 5, 6, 7, 0]) []).x (16 + (7 : Nat)) = 0 ∧
      ∀ j : Nat, j < 7 → (st (row 16 [1, 2, 3, 4, 5, 6, 7, 0]) []).x (16 + j) ≠ 0 := by decide +kernel

theorem witness_BroadcastFillsAllLanes : IsBase 1528 ∧ IsCell 1535 := by decide

theorem witness_MultiplyAddPerLane : IsBase 1528 ∧ IsBase 0 ∧ IsBase 1 ∧ IsBase 1528 := by decide

/-- The last existing address, 127. -/
theorem witness_LoadsReadTheAddressedWord :
    (IsCell 1535 ∧ IsCell 4 ∧ (w.x 4).toNat < w.params.memSize) ∧
    (IsCell (1530 + 5) ∧ IsCell (-1 + 5) ∧ (w.x (-1 + 5)).toNat < w.params.memSize) := by decide +kernel

/-- The last legal base, 120. -/
theorem witness_VectorTransfersMoveEightWords : IsBase 1528 ∧ IsCell 5 ∧ (w.x 5).toNat + 7 < w.params.memSize := by
  decide +kernel

theorem witness_ConstIsReducedModTwoPow32 : IsCell 1535 := by decide

theorem witness_StoreWritesTheAddressedWord : IsCell 4 ∧ IsCell 1535 ∧ (w.x 4).toNat < w.params.memSize := by decide +kernel

/-- The first address that does not exist, 128; and a vector from 127 on, of which only the first word exists. -/
theorem witness_AccessOutsideMemoryFaults :
    (IsCell 1535 ∧ IsCell 3 ∧ w.params.memSize ≤ (w.x 3).toNat) ∧
    (IsBase 1528 ∧ IsCell 4 ∧ w.params.memSize ≤ (w.x 4).toNat + 7) := by decide +kernel

theorem witness_SelectsTestAgainstZero :
    (IsCell 1535 ∧ IsCell 0 ∧ IsCell 1 ∧ IsCell 2) ∧ (IsBase 1528 ∧ IsBase 0 ∧ IsBase 8 ∧ IsBase 1528) := by decide

theorem witness_AddImmediateModTwoPow32 : IsCell 1535 ∧ IsCell 0 := by decide

theorem witness_JumpsSetTheNextPc : IsCell 1535 ∧ IsCell 0 := by decide

theorem witness_RelativeJumpCountsFromRelBase :
    IsCell 0 ∧ IsCell 1 ∧ w.x 0 = 0 ∧ w.x 1 ≠ 0 ∧ w.params.relBase = .one ∧
      State.x { w with params := { w.params with relBase := .zero } } 1 ≠ 0 := by decide +kernel

theorem witness_TraceWriteAndCoreId : IsCell 0 ∧ IsCell 1535 := by decide

/-- The bundle of a core at `pc` 0 is the one its program holds. -/
theorem fetches_at0 {b : Bundle} (cells mem : List (Nat × Nat)) (h : decodeBundle (encodeBundle b) = .ok b) :
    Fetches (at0 b cells mem) b := ⟨encodeBundle b, rfl, h⟩

theorem ready_at0 (b : Bundle) (cells mem : List (Nat × Nat)) : Ready (at0 b cells mem) := ⟨rfl, rfl, rfl⟩

/-- A state reached by a step of a core at `pc` 0. -/
theorem witness_HaltAndPauseEndTheRun :
    (Ready (at0 (Bundle.single .halt) [] []) ∧ Fetches (at0 (Bundle.single .halt) [] []) (Bundle.single .halt) ∧
      (∃ t, step (at0 (Bundle.single .halt) [] []) = .next t ∧ (t.fault == none) = true)) ∧
    (Ready (at0 (Bundle.single .pause) [] []) ∧ Fetches (at0 (Bundle.single .pause) [] []) (Bundle.single .pause) ∧
      (∃ t, step (at0 (Bundle.single .pause) [] []) = .next t ∧ (t.fault == none) = true)) :=
  ⟨⟨ready_at0 _ _ _, fetches_at0 _ _ (by decide +kernel), exists_of_answers (by decide +kernel)⟩,
   ⟨ready_at0 _ _ _, fetches_at0 _ _ (by decide +kernel), exists_of_answers (by decide +kernel)⟩⟩

/-- Cell 0 against the entry under the key 0, and the vector from cell 1528 on against those under the keys 0 to 7. -/
theorem witness_AssertionsThatHoldChangeNothing :
    (IsCell 0 ∧ w.params.enableDebug = true ∧ w.params.traceAt (.int 0) = some ((w.x 0).toNat : Int)) ∧
    (IsBase 1528 ∧ keys8.length = 8 ∧
      keys8.zipIdx.all (fun p => decide (w.params.traceAt p.1 = some ((w.x (1528 + (p.2 : Int))).toNat : Int))) = true) := by
  decide +kernel

/-- A missing key, an entry that differs, a vector with a missing key, a vector with an entry that differs. -/
theorem witness_AssertionsThatFailFault :
    (IsCell 0 ∧ w.params.enableDebug = true ∧ w.params.traceAt (.int 9) = none) ∧
    (w.params.traceAt (.str (ascii "k0")) = some 5 ∧ (5 : Int) ≠ ((w.x 0).toNat : Int)) ∧
    (IsBase 1528 ∧ (Py.int 9 :: keys8.take 7).length = 8 ∧ ∃ k ∈ Py.int 9 :: keys8.take 7, w.params.traceAt k = none) ∧
    (IsBase 0 ∧ keys8.length = 8 ∧ (∀ k ∈ keys8, w.params.traceAt k ≠ none) ∧
      keys8[1]? = some (.int 1) ∧ w.params.traceAt (.int 1) ≠ some ((w.x (0 + (1 : Nat))).toNat : Int)) := by decide +kernel

theorem witness_DisabledDebugSlotsAreSkipped :
    State.reset.params.enableDebug = false ∧ Instr.engine (.compare 1535 (.int 0)) = .debug ∧
      Instr.wellFormed (.compare 1535 (.int 0)) = true ∧ fullBundle.wellFormed = true := by decide +kernel

theorem witness_SlotFrame :
    (∃ t, exec (.vstore 5 1528) w = .next t) ∧ (∃ t, exec (.valuAdd 1528 0 1528) w = .next t) ∧
    (∃ t, exec (.traceWrite 1535) w = .next t) ∧ (∃ t, exec (.condJump 1 (-1)) w = .next t) ∧
    (∃ t, exec .halt w = .next t) :=
  ⟨next_of_answers (by decide +kernel), next_of_answers (by decide +kernel), next_of_answers (by decide +kernel),
   next_of_answers (by decide +kernel), next_of_answers (by decide +kernel)⟩

/-- Two states that differ in cell 9, which the slot does not name as a source. -/
theorem witness_SlotReadsOnlyItsSources :
    (∀ a ∈ Instr.readCells (.valuAdd 9 0 16), (st [(1, 7), (8, 1)] []).x a = (st [(1, 7), (8, 2)] []).x a) ∧
    (st [(1, 7), (8, 1)] []).mem = (st [(1, 7), (8, 2)] []).mem ∧
    (st [(1, 7), (8, 1)] []).params = (st [(1, 7), (8, 2)] []).params ∧
    (st [(1, 7), (8, 1)] []).x 8 ≠ (st [(1, 7), (8, 2)] []).x 8 := by decide +kernel

theorem witness_IllFormedSlotsHaveNoEffect :
    Instr.wellFormed (.loadOffset 1530 0 6) = false ∧ Instr.wellFormed (.loadOffset 1530 0 5) = true := by decide +kernel

/-- A bundle with a slot in each engine, all of which answer. -/
def mixed : Bundle where
  alu := some [.aluAdd 1535 1 2]
  valu := some [.valuAdd 1528 0 8]
  load := some [.load 10 4]
  store := some [.store 4 1]
  flow := some [.traceWrite 1]
  debug := some [.compare 0 (.int 0)]

/-- A core about to execute that bundle. -/
def wMixed : State := at0 mixed [(1, 7), (2, 32), (4, 127)] [(127, 9)]

theorem witness_StepRunsTheDecodedBundle :
    (Ready wMixed ∧ Fetches wMixed mixed ∧ ∃ t, runSlots (schedule mixed) wMixed.beginCycle = .next t) ∧
    (Ready (at0 (Bundle.single (.jump 5)) [] []) ∧
      Fetches (at0 (Bundle.single (.jump 5)) [] []) (Bundle.single (.jump 5)) ∧
      ∃ t, exec (.jump 5) (at0 (Bundle.single (.jump 5)) [] []).beginCycle = .next t) :=
  ⟨⟨ready_at0 _ _ _, fetches_at0 _ _ (by decide +kernel), next_of_answers (by decide +kernel)⟩,
   ⟨ready_at0 _ _ _, fetches_at0 _ _ (by decide +kernel), next_of_answers (by decide +kernel)⟩⟩

theorem answers_of_all {l : List Instr} {s : State}
    (h : l.all (fun i => answers (exec i s) (fun _ => true)) = true) : ∀ i ∈ l, ∃ t, exec i s = .next t :=
  fun i hi => next_of_answers (List.all_eq_true.1 h i hi)

theorem witness_BundleReadsThenCommits :
    Ready wMixed ∧ Mem.wf wMixed.mem ∧ Fetches wMixed mixed ∧ ∀ i ∈ mixed.allSlots, ∃ t, exec i wMixed.beginCycle = .next t :=
  ⟨ready_at0 _ _ _, by decide +kernel, fetches_at0 _ _ (by decide +kernel), answers_of_all (by decide +kernel)⟩

/-- A bundle whose second slot divides by 0. -/
def faulty : Bundle := { Bundle.empty with alu := some [.aluAdd 3 1 2, .aluDiv 3 1 0] }

theorem not_next_of_faultOf {o : Outcome} {r : Fault} (h : faultOf o = some r) : ∀ t, o ≠ .next t := by
  rintro t rfl
  cases h

theorem witness_FaultingBundleCommitsNothing :
    Ready (at0 faulty [] []) ∧ Fetches (at0 faulty [] []) faulty ∧
      ∃ i ∈ faulty.allSlots, ∀ t, exec i (at0 faulty [] []).beginCycle ≠ .next t :=
  ⟨ready_at0 _ _ _, fetches_at0 _ _ (by decide +kernel), .aluDiv 3 1 0, by decide +kernel,
   not_next_of_faultOf (r := .divideByZero 0 .alu 0 none) (by decide +kernel)⟩

theorem witness_BundleFrame :
    Ready wMixed ∧ Fetches wMixed mixed ∧ (∃ t, step wMixed = .next t) ∧
      ((0 : Nat) : Int) ∉ mixed.writtenCells ∧ 126 ∉ bundleStores mixed wMixed :=
  ⟨ready_at0 _ _ _, fetches_at0 _ _ (by decide +kernel), next_of_answers (by decide +kernel), by decide +kernel,
   by decide +kernel⟩

theorem witness_SwapWithoutTemporary :
    Ready (at0 { Bundle.empty with alu := some [.aluAdd 0 1535 1, .aluAdd 1535 0 1] } [(0, 3), (1535, 4)] []) ∧
    IsCell 0 ∧ IsCell 1535 ∧ IsCell 1 ∧ (0 : Int) ≠ 1535 ∧
    (at0 { Bundle.empty with alu := some [.aluAdd 0 1535 1, .aluAdd 1535 0 1] } [(0, 3), (1535, 4)] []).x 1 = 0 ∧
    Fetches (at0 { Bundle.empty with alu := some [.aluAdd 0 1535 1, .aluAdd 1535 0 1] } [(0, 3), (1535, 4)] [])
      { Bundle.empty with alu := some [.aluAdd 0 1535 1, .aluAdd 1535 0 1] } :=
  ⟨ready_at0 _ _ _, by decide, by decide, by decide, by decide, by decide +kernel, fetches_at0 _ _ (by decide +kernel)⟩

theorem witness_LaterEngineWins :
    Ready (at0 { Bundle.empty with load := some [.const 1535 (-1)], flow := some [.addImm 1535 0 (-1)] } [] []) ∧
    IsCell 1535 ∧ IsCell 0 ∧
    Fetches (at0 { Bundle.empty with load := some [.const 1535 (-1)], flow := some [.addImm 1535 0 (-1)] } [] [])
      { Bundle.empty with load := some [.const 1535 (-1)], flow := some [.addImm 1535 0 (-1)] } :=
  ⟨ready_at0 _ _ _, by decide, by decide, fetches_at0 _ _ (by decide +kernel)⟩

/-- The last existing address. -/
theorem witness_LoadBesideStoreReadsOldWord :
    Ready (at0 { Bundle.empty with load := some [.load 3 1], store := some [.store 1 2] } [(1, 127), (2, 77)] [(127, 9)]) ∧
    Mem.wf (at0 { Bundle.empty with load := some [.load 3 1], store := some [.store 1 2] } [(1, 127), (2, 77)] [(127, 9)]).mem ∧
    IsCell 3 ∧ IsCell 1 ∧ IsCell 2 ∧
    ((st [(1, 127), (2, 77)] [(127, 9)]).x 1).toNat < (st [(1, 127), (2, 77)] [(127, 9)]).params.memSize ∧
    Fetches (at0 { Bundle.empty with load := some [.load 3 1], store := some [.store 1 2] } [(1, 127), (2, 77)] [(127, 9)])
      { Bundle.empty with load := some [.load 3 1], store := some [.store 1 2] } :=
  ⟨ready_at0 _ _ _, by decide +kernel, by decide, by decide, by decide, by decide +kernel,
   fetches_at0 _ _ (by decide +kernel)⟩

theorem witness_EmptyBundlesMoveThePcOnly :
    (Ready (at0 Bundle.empty [] []) ∧ Fetches (at0 Bundle.empty [] []) Bundle.empty) ∧
    (Ready (at0 { Bundle.empty with debug := some [] } [] []) ∧
      Fetches (at0 { Bundle.empty with debug := some [] } [] []) { Bundle.empty with debug := some [] }) ∧
    (Ready (at0 { Bundle.empty with alu := some [] } [] []) ∧
      Fetches (at0 { Bundle.empty with alu := some [] } [] []) { Bundle.empty with alu := some [] }) :=
  ⟨⟨ready_at0 _ _ _, fetches_at0 _ _ (by decide +kernel)⟩, ⟨ready_at0 _ _ _, fetches_at0 _ _ (by decide +kernel)⟩,
   ⟨ready_at0 _ _ _, fetches_at0 _ _ (by decide +kernel)⟩⟩

theorem witness_StepKeepsInv : Inv wMixed ∧ ∃ t, step wMixed = .next t :=
  ⟨⟨by decide +kernel, by decide +kernel, rfl, fun _ => ⟨rfl, rfl⟩⟩, next_of_answers (by decide +kernel)⟩

theorem witness_ResetAndLaunchMeetInv : launch Params.bare [(4294967295, 1)] 1 = .ok (State.ofLaunch Params.bare [(4294967295, 1)] 1) :=
  rfl

theorem witness_NoStepChangesTheProgram : ∃ t, step wMixed = .next t := next_of_answers (by decide +kernel)

theorem witness_OnlyARecordedFaultEndsTheSteps :
    wMixed.fault = none ∧ State.fault { State.reset with fault := some (.fetchOutOfRange 3) } = some (.fetchOutOfRange 3) :=
  ⟨rfl, rfl⟩

theorem witness_CountersOnlyGrow : ∃ t, step wMixed = .next t ∧ (t.traceBuf == [7]) = true :=
  exists_of_answers (by decide +kernel)

/-- The three ways out of `RUNNING`. -/
theorem witness_OnlyHaltPauseOrEndLeaveRunning :
    (∃ t, step (at0 (Bundle.single .halt) [] []) = .next t ∧ (t.runState != .running) = true) ∧
    (∃ t, step (at0 (Bundle.single .pause) [] []) = .next t ∧ (t.runState != .running) = true) ∧
    (∃ t, step (atEnd .stop) = .next t ∧ (t.runState != .running) = true) :=
  ⟨exists_of_answers (by decide +kernel), exists_of_answers (by decide +kernel), exists_of_answers (by decide +kernel)⟩

theorem witness_StoppedCoreStaysStopped : (waiting .stopped).runState = .stopped ∧ ∃ t, step (waiting .stopped) = .next t :=
  ⟨rfl, next_of_answers (by decide +kernel)⟩

/-- The `pc` just below the program and just beyond it, the latter for both settings. -/
theorem witness_FetchOutsideTheProgram :
    (Ready { atEnd .fault with pc := -1 } ∧ State.pc { atEnd .fault with pc := -1 } < 0) ∧
    (Ready (atEnd .fault) ∧ ((atEnd .fault).params.program.length : Int) ≤ (atEnd .fault).pc) ∧
    (Ready (atEnd .stop) ∧ ((atEnd .stop).params.program.length : Int) ≤ (atEnd .stop).pc) :=
  ⟨⟨⟨rfl, rfl, rfl⟩, by decide⟩, ⟨⟨rfl, rfl, rfl⟩, by decide⟩, ⟨⟨rfl, rfl, rfl⟩, by decide⟩⟩

theorem witness_IllFormedBundleIsNeverExecuted :
    Ready (at0 (Bundle.single (.aluAdd 1536 0 0)) [] []) ∧
    fetch (at0 (Bundle.single (.aluAdd 1536 0 0)) [] []) = some (encodeBundle (Bundle.single (.aluAdd 1536 0 0))) ∧
    decodeBundle (encodeBundle (Bundle.single (.aluAdd 1536 0 0))) = .error .scratchRange :=
  ⟨ready_at0 _ _ _, rfl, by decide +kernel⟩

theorem witness_RunResumesAPausedCore :
    (State.reset.fault = none ∧ State.reset.inRun = false ∧ State.reset.runCalls = 0) ∧
    ((waiting .paused).fault = none ∧ (waiting .paused).inRun = false ∧ (waiting .paused).runCalls = 0 + 1 ∧
      (waiting .paused).runState ≠ .stopped) ∧
    ((waiting .stopped).inRun = false ∧ (waiting .stopped).runCalls = 0 + 1 ∧ (waiting .stopped).runState = .stopped) :=
  ⟨⟨rfl, rfl, rfl⟩, ⟨rfl, rfl, rfl, by decide⟩, rfl, rfl, rfl⟩

theorem witness_ScratchIsZeroAtLaunch : launch Params.bare [(3, 5)] 2 = .ok (State.ofLaunch Params.bare [(3, 5)] 2) := rfl

/-- A well-formed program of one bundle, and one whose second bundle is ill-formed. -/
theorem witness_LaunchChecksTheProgram :
    (Mem.wf [(4294967295, 1)] ∧ Mem.within [(4294967295, 1)] Params.bare.memSize) ∧
    (∀ lit ∈ [encodeBundle mixed], ∃ b, decodeBundle lit = .ok b) ∧
    (∃ lit ∈ [encodeBundle mixed, Py.int 0], ∃ c, decodeBundle lit = .error c) :=
  ⟨by decide, by simpa using ⟨mixed, by decide +kernel⟩, Py.int 0, by simp, .bundleIsDict, rfl⟩

end Sys2Proof.Tests
end

section
/-! SUPPORT. What a launch answers, and the scratch space it starts with (10_state.md R24, R38). -/

namespace Sys2Proof.Machine

/-- A launch is accepted exactly when every bundle is well-formed and the image fits, and then it is the state of
10_state.md R38. -/
theorem launch_eq_ok_iff {p : Params} {image : Mem} {calls : Nat} {s : State} :
    launch p image calls = .ok s ↔
      firstIllFormed 0 p.program = none ∧ (Mem.wf image ∧ Mem.within image p.memSize) ∧
        State.ofLaunch p image calls = s := by
  unfold launch
  cases firstIllFormed 0 p.program with
  | some e => simp
  | none =>
    by_cases hfit : Mem.wf image ∧ Mem.within image p.memSize
    · simp only [if_pos hfit, Except.ok.injEq, true_and, and_iff_right hfit]
    · simp only [hfit, if_false, reduceCtorEq, false_and, and_false]

/-- Inside the scratch space a read gives the word put there at launch; outside it, the 0 of `State.x` itself. -/
@[simp] theorem State.ofLaunch_x (p : Params) (image : Mem) (calls : Nat) (a : Int) :
    (State.ofLaunch p image calls).x a = 0 := by
  rw [State.x, State.ofLaunch_scratch]
  by_cases ha : a.toNat < scratchSize
  · simp [Vector.getElem?_eq_getElem ha]
  · simp [Vector.getElem?_eq_none (Nat.le_of_not_lt ha)]

/-- Settles O55: an accepted launch is `State.ofLaunch`, whose cells all read 0. -/
theorem scratchIsZeroAtLaunch : Obligations.ScratchIsZeroAtLaunch := by
  intro p image calls s h a
  obtain ⟨-, -, rfl⟩ := launch_eq_ok_iff.mp h
  exact State.ofLaunch_x p image calls a

end Sys2Proof.Machine
end

section
/-! SUPPORT. The ALU operations that cannot fault: the pending write of each, by `aluOp_run`, and the value written. -/

namespace Sys2Proof.Machine

/-- Settles O9: the lane functions reduce the exact result once, as a natural number for `+` and `*` and as an integer for
`-`, whose exact result may be negative. -/
theorem aluSumDifferenceProduct : Obligations.AluSumDifferenceProduct := by
  intro s d a b hd ha hb
  refine ⟨⟨_, aluOp_run hd ha hb (f := addLane) rfl, ?sum⟩, ⟨_, aluOp_run hd ha hb (f := subLane) rfl, ?difference⟩,
    ⟨_, aluOp_run hd ha hb (f := mulLane) rfl, ?product⟩⟩
  case sum => exact ofNatMod_toNat _
  case difference => exact ofIntMod_toNat _
  case product => exact ofNatMod_toNat _

/-- Settles O10: the lane functions are the bit operations of words, which act on each bit alone. -/
theorem aluBitwise : Obligations.AluBitwise := by
  intro s d a b hd ha hb
  refine ⟨⟨_, aluOp_run hd ha hb (f := xorLane) rfl, ?xor⟩, ⟨_, aluOp_run hd ha hb (f := andLane) rfl, ?and⟩,
    ⟨_, aluOp_run hd ha hb (f := orLane) rfl, ?or⟩⟩
  case xor => exact fun _ _ => BitVec.getLsbD_xor
  case and => exact fun _ _ => BitVec.getLsbD_and
  case or => exact fun _ _ => BitVec.getLsbD_or

end Sys2Proof.Machine
end

section
/-! SUPPORT. The two special operations of the VALU (41_valu.md R144, R145). Neither can fault on operands in range, since
its meaning is one unconditional vector write under `checked`. -/

namespace Sys2Proof.Machine

/-- Product and sum are reduced once, together. -/
@[simp] theorem mulAddLane_toNat (a b c : Word) :
    (mulAddLane a b c).toNat = (a.toNat * b.toNat + c.toNat) % 2 ^ 32 := ofNatMod_toNat _

theorem execVbroadcast_run {d src : Int} {s : State} (hd : IsBase d) (hsrc : IsCell src) :
    execVbroadcast d src s = .next (s.pendVector d (fun _ => s.x src)) :=
  checked_run (by simpa using hsrc) (by simpa using hd) s _

theorem execMultiplyAdd_run {d a b c : Int} {s : State} (hd : IsBase d) (ha : IsBase a) (hb : IsBase b) (hc : IsBase c) :
    execMultiplyAdd d a b c s =
      .next (s.pendVector d (fun i => mulAddLane (s.x (a + i)) (s.x (b + i)) (s.x (c + i)))) :=
  checked_run (by simp) (by simpa using ⟨hd, ha, hb, hc⟩) s _

/-- Settles O18: each lane's pending value is the one start-of-cycle read of `src`, so no lane can see the write of another,
and `laneWrites` lists the cells in order. -/
theorem broadcastFillsAllLanes : Obligations.BroadcastFillsAllLanes := by
  intro s d src hd hsrc
  exact ⟨_, execVbroadcast_run hd hsrc, rfl⟩

/-- Settles O19: the value of lane `k` is `mulAddLane` of the lanes `k` of the three sources. -/
theorem multiplyAddPerLane : Obligations.MultiplyAddPerLane := by
  intro s d a b c hd ha hb hc
  exact ⟨_, execMultiplyAdd_run hd ha hb hc, fun _ _ => mulAddLane_toNat _ _ _⟩

end Sys2Proof.Machine
end

section
/-! SUPPORT. The Load operation that reads no memory (42_load.md R159). It cannot fault on a cell in range, since its meaning
is one unconditional write under `checked`. -/

namespace Sys2Proof.Machine

theorem execConst_run {d : Int} (hd : IsCell d) (val : Int) (s : State) :
    execConst d val s = .next (s.pend d (Word.ofIntMod val)) :=
  checked_run (by simpa using hd) (by simp) s _

/-- Settles O22: the word written is `Word.ofIntMod val`, whose unsigned value is the integer remainder by `2 ^ 32`, never
negative. -/
theorem constIsReducedModTwoPow32 : Obligations.ConstIsReducedModTwoPow32 := by
  intro s d val hd
  exact ⟨_, execConst_run hd val s, ofIntMod_toNat val⟩

end Sys2Proof.Machine
end

section
/-! SUPPORT. The Flow operations that write a cell or set the next `pc` (44_flow.md R174 to R183). None can fault on operands
in range; a condition is a word, and what each does with it is said through `ite_isTrue`, as a test against 0. -/

namespace Sys2Proof.Machine

/-- The machine's test of a condition word, as a test of its unsigned value: every word other than 0 counts as true. -/
theorem ite_isTrue {α : Type} (w : Word) (p q : α) : (if isTrue w then p else q) = if w.toNat ≠ 0 then p else q :=
  if_congr (isTrue_iff w) rfl rfl

theorem execSelect_run {d c a b : Int} {s : State} (hd : IsCell d) (hc : IsCell c) (ha : IsCell a) (hb : IsCell b) :
    execSelect d c a b s = .next (s.pend d (if (s.x c).toNat ≠ 0 then s.x a else s.x b)) := by
  rw [← ite_isTrue]
  exact checked_run (by simpa using ⟨hd, hc, ha, hb⟩) (by simp) s _

theorem execVselect_run {d c a b : Int} {s : State} (hd : IsBase d) (hc : IsBase c) (ha : IsBase a) (hb : IsBase b) :
    execVselect d c a b s =
      .next (s.pendVector d (fun i => if isTrue (s.x (c + i)) then s.x (a + i) else s.x (b + i))) :=
  checked_run (by simp) (by simpa using ⟨hd, hc, ha, hb⟩) s _

theorem execAddImm_run {d a : Int} (hd : IsCell d) (ha : IsCell a) (imm : Int) (s : State) :
    execAddImm d a imm s = .next (s.pend d (Word.ofIntMod ((s.x a).toNat + imm))) :=
  checked_run (by simpa using ⟨hd, ha⟩) (by simp) s _

/-- Both conditional jumps: taken, the next `pc` is the target; not taken, nothing changes and the commit moves on by one. -/
theorem condJumpOp_run {c : Int} (hc : IsCell c) (target : Int) (s : State) :
    condJumpOp c target s = .next (if (s.x c).toNat ≠ 0 then s.pendPc target else s) := by
  rw [← ite_isTrue, apply_ite Host.Outcome.next]
  exact checked_run (by simpa using hc) (by simp) s _

theorem execJumpIndirect_run {a : Int} (ha : IsCell a) (s : State) :
    execJumpIndirect a s = .next (s.pendPc ((s.x a).toNat : Int)) :=
  checked_run (by simpa using ha) (by simp) s _

/-- Settles O25: `vselect` makes in each lane the choice `select` makes for its one cell. -/
theorem selectsTestAgainstZero : Obligations.SelectsTestAgainstZero := by
  refine ⟨?select, ?vselect⟩
  case select => exact fun _ _ _ _ _ hd hc ha hb => execSelect_run hd hc ha hb
  case vselect => exact fun _ _ _ _ _ hd hc ha hb => ⟨_, execVselect_run hd hc ha hb, fun _ _ => ite_isTrue _ _ _⟩

/-- Settles O26: the sum is taken over the integers and reduced once, so `imm` may have either sign and any size. -/
theorem addImmediateModTwoPow32 : Obligations.AddImmediateModTwoPow32 := by
  intro s d a imm hd ha
  exact ⟨_, execAddImm_run hd ha imm s, ofIntMod_toNat _⟩

/-- Settles O27: `jump` names no cell, so it needs no operand in range; the other two read one cell. -/
theorem jumpsSetTheNextPc : Obligations.JumpsSetTheNextPc := by
  refine ⟨?condJump, ?jump, ?jumpIndirect⟩
  case condJump => exact fun s _ t hc => condJumpOp_run hc t s
  case jump => exact fun _ _ => rfl
  case jumpIndirect => exact fun s _ ha => execJumpIndirect_run ha s

end Sys2Proof.Machine
end

section
/-! SUPPORT. The decoder on slots (30_encoding.md R82, R84, R88): the tuple of a well-formed operation is read as that
operation, and no other literal is. -/

namespace Sys2Proof

theorem Instr.keysFit_iff {i : Instr} :
    i.keysFit = true ↔ ∀ loc keys, i = .vcompare loc keys → keys.length = 8 := by
  cases i
  case vcompare => simp [Instr.keysFit]
  all_goals simp [Instr.keysFit]

/-- The checks of WellFormed on one slot, in the terms of the operand kinds (R85). -/
theorem Instr.wellFormed_iff {i : Instr} :
    i.wellFormed = true ↔
      i.keysFit = true ∧ (∀ a ∈ i.scalarFields, IsCell a) ∧ ∀ a ∈ i.vectorFields, IsBase a := by
  simp [Instr.wellFormed, Instr.inScratchRange]

/-- The row of the operation map under an operation's name reads back the fields the encoder writes. -/
theorem readSlot_encodeSlot (i : Instr) : readSlot i.engine (encodeSlot i) = .ok i := by
  cases i
  case vcompare loc keys =>
    show fieldsKeys .vcompare [.int loc, .list (Pys.ofList keys)] = _
    rw [fieldsKeys, Pys.toList_ofList]
  all_goals rfl

/-- Settles O1: the shape is read back, and a well-formed operation passes the checks that follow. -/
theorem decodeOfEncodedSlot : Obligations.DecodeOfEncodedSlot := by
  intro i hi
  have hchecks : i.failedCheck i.engine = none := Instr.failedCheck_eq_none.2 ⟨rfl, hi⟩
  simp only [decodeSlot, readSlot_encodeSlot, hchecks]

/-- A tuple written out decodes to `i` if it is the one the encoder writes and the operands are in range. What follows
from the operation by computation is left to the defaults. -/
theorem decodeSlot_slotTuple {i : Instr} {e : Engine} {name : String} {fields : List Py} {cells bases : List Int}
    (hcells : ∀ a ∈ cells, IsCell a) (hbases : ∀ a ∈ bases, IsBase a) (hkeys : i.keysFit = true := by rfl)
    (hengine : i.engine = e := by rfl) (hname : ascii name = i.opName := by rfl) (hfields : fields = i.fields := by rfl)
    (hscalar : i.scalarFields ⊆ cells := by simp [Instr.scalarFields])
    (hvector : i.vectorFields ⊆ bases := by simp [Instr.vectorFields]) :
    decodeSlot e (slotTuple name fields) = .ok i := by
  rw [← hengine, slotTuple, hname, hfields]
  exact decodeOfEncodedSlot i
    (Instr.wellFormed_iff.2 ⟨hkeys, fun a ha => hcells a (hscalar ha), fun a ha => hbases a (hvector ha)⟩)

/-- Settles O3: each tuple is the one the encoder writes, so O1 applies; what is said of each group of operations is the
range of its operands. -/
theorem tuplesOfTheOperationMap : Obligations.TuplesOfTheOperationMap := by
  have hnone {P : Int → Prop} : ∀ a ∈ ([] : List Int), P a := by simp
  refine ⟨?a3, ?v3, ?vb, ?vm, ?lo, ?f4, ?vl, ?others, ?compare, ?vcompare⟩
  case a3 =>
    intro d a b hd ha hb
    have hcells : ∀ c ∈ [d, a, b], IsCell c := by simpa using ⟨hd, ha, hb⟩
    and_intros <;> exact decodeSlot_slotTuple hcells hnone
  case v3 =>
    intro d a b hd ha hb
    have hbases : ∀ c ∈ [d, a, b], IsBase c := by simpa using ⟨hd, ha, hb⟩
    and_intros <;> exact decodeSlot_slotTuple hnone hbases
  case vb =>
    intro d src hd hsrc
    exact decodeSlot_slotTuple (cells := [src]) (bases := [d]) (by simpa using hsrc) (by simpa using hd)
  case vm =>
    intro d a b c hd ha hb hc
    have hbases : ∀ k ∈ [d, a, b, c], IsBase k := by simpa using ⟨hd, ha, hb, hc⟩
    and_intros <;> exact decodeSlot_slotTuple hnone hbases
  case lo =>
    intro d a o hd ha
    have hcells : ∀ c ∈ [d + o, a + o], IsCell c := by simpa using ⟨hd, ha⟩
    exact decodeSlot_slotTuple hcells hnone
  case f4 =>
    intro d a b c hd ha hb hc
    have hcells : ∀ k ∈ [d, a, b, c], IsCell k := by simpa using ⟨hd, ha, hb, hc⟩
    exact decodeSlot_slotTuple hcells hnone
  case vl =>
    intro d a hd ha
    have hcells : ∀ c ∈ [a], IsCell c := by simpa using ha
    have hbases : ∀ c ∈ [d], IsBase c := by simpa using hd
    and_intros <;> exact decodeSlot_slotTuple hcells hbases
  case others =>
    intro d a n hd ha
    have hcells : ∀ c ∈ [d, a], IsCell c := by simpa using ⟨hd, ha⟩
    and_intros <;> exact decodeSlot_slotTuple hcells hnone
  case compare =>
    intro l k hl
    exact decodeSlot_slotTuple (cells := [l]) (by simpa using hl) hnone
  case vcompare =>
    intro l ks hl hks
    exact decodeSlot_slotTuple (bases := [l]) hnone (by simpa using hl) (by simpa [Instr.keysFit] using hks)

/-- A reader that accepts only the fields of operations with the name `name`. -/
def ReadsOnly (name : Text) (read : FieldReader) : Prop :=
  ∀ fields i, read fields = .ok i → i.opName = name ∧ i.fields = fields

section Formats
variable {name : Text}

theorem readsOnly_fields0 {i : Instr} (h : i.opName = name ∧ i.fields = []) : ReadsOnly name (fields0 i) := by
  intro fields j hj
  unfold fields0 at hj
  split at hj <;> cases hj
  exact h

theorem readsOnly_fields1 {f : Int → Instr} (h : ∀ a, (f a).opName = name ∧ (f a).fields = [.int a]) :
    ReadsOnly name (fields1 f) := by
  intro fields j hj
  unfold fields1 at hj
  split at hj <;> cases hj
  exact h _

theorem readsOnly_fields2 {f : Int → Int → Instr}
    (h : ∀ a b, (f a b).opName = name ∧ (f a b).fields = [.int a, .int b]) : ReadsOnly name (fields2 f) := by
  intro fields j hj
  unfold fields2 at hj
  split at hj <;> cases hj
  exact h _ _

theorem readsOnly_fields3 {f : Int → Int → Int → Instr}
    (h : ∀ a b c, (f a b c).opName = name ∧ (f a b c).fields = [.int a, .int b, .int c]) :
    ReadsOnly name (fields3 f) := by
  intro fields j hj
  unfold fields3 at hj
  split at hj <;> cases hj
  exact h _ _ _

theorem readsOnly_fields4 {f : Int → Int → Int → Int → Instr}
    (h : ∀ a b c d, (f a b c d).opName = name ∧ (f a b c d).fields = [.int a, .int b, .int c, .int d]) :
    ReadsOnly name (fields4 f) := by
  intro fields j hj
  unfold fields4 at hj
  split at hj <;> cases hj
  exact h _ _ _ _

theorem readsOnly_fieldsKey {f : Int → Key → Instr}
    (h : ∀ a k, (f a k).opName = name ∧ (f a k).fields = [.int a, k]) : ReadsOnly name (fieldsKey f) := by
  intro fields j hj
  unfold fieldsKey at hj
  split at hj <;> cases hj
  exact h _ _

theorem readsOnly_fieldsKeys {f : Int → List Key → Instr}
    (h : ∀ a ks, (f a ks).opName = name ∧ (f a ks).fields = [.int a, .list (Pys.ofList ks)]) :
    ReadsOnly name (fieldsKeys f) := by
  intro fields j hj
  unfold fieldsKeys at hj
  split at hj
  case h_1 a ks => cases hj; simpa only [Pys.ofList_toList] using h a ks.toList
  case h_2 => cases hj
  case h_3 => cases hj

end Formats

/-- The rows of the operation map, each by its format. -/
theorem opMap_readsOnly (e : Engine) : ∀ row ∈ opMap e, ReadsOnly row.1 row.2 := by
  cases e <;> simp only [opMap, List.forall_mem_cons, List.not_mem_nil, false_imp_iff, implies_true, and_true]
  case alu => and_intros <;> exact readsOnly_fields3 fun _ _ _ => ⟨rfl, rfl⟩
  case valu =>
    iterate 13 refine ⟨readsOnly_fields3 fun _ _ _ => ⟨rfl, rfl⟩, ?_⟩
    exact ⟨readsOnly_fields2 fun _ _ => ⟨rfl, rfl⟩, readsOnly_fields4 fun _ _ _ _ => ⟨rfl, rfl⟩⟩
  case load =>
    exact ⟨readsOnly_fields2 fun _ _ => ⟨rfl, rfl⟩, readsOnly_fields3 fun _ _ _ => ⟨rfl, rfl⟩,
      readsOnly_fields2 fun _ _ => ⟨rfl, rfl⟩, readsOnly_fields2 fun _ _ => ⟨rfl, rfl⟩⟩
  case store => exact ⟨readsOnly_fields2 fun _ _ => ⟨rfl, rfl⟩, readsOnly_fields2 fun _ _ => ⟨rfl, rfl⟩⟩
  case flow =>
    exact ⟨readsOnly_fields4 fun _ _ _ _ => ⟨rfl, rfl⟩, readsOnly_fields4 fun _ _ _ _ => ⟨rfl, rfl⟩,
      readsOnly_fields3 fun _ _ _ => ⟨rfl, rfl⟩, readsOnly_fields0 ⟨rfl, rfl⟩, readsOnly_fields0 ⟨rfl, rfl⟩,
      readsOnly_fields1 fun _ => ⟨rfl, rfl⟩, readsOnly_fields2 fun _ _ => ⟨rfl, rfl⟩,
      readsOnly_fields2 fun _ _ => ⟨rfl, rfl⟩, readsOnly_fields1 fun _ => ⟨rfl, rfl⟩,
      readsOnly_fields1 fun _ => ⟨rfl, rfl⟩, readsOnly_fields1 fun _ => ⟨rfl, rfl⟩⟩
  case debug => exact ⟨readsOnly_fieldsKey fun _ _ => ⟨rfl, rfl⟩, readsOnly_fieldsKeys fun _ _ => ⟨rfl, rfl⟩⟩

/-- What is found under a name is a row of the map with that name. -/
theorem findOp_mem {name : Text} {rows : List (Text × FieldReader)} {read : FieldReader}
    (h : findOp name rows = some read) : (name, read) ∈ rows := by
  induction rows with
  | nil => cases h
  | cons row rest ih =>
    rw [findOp] at h
    split at h
    case isTrue hname => cases h; exact List.mem_cons.2 (.inl (by rw [← hname]))
    case isFalse => exact List.mem_cons_of_mem _ (ih h)

/-- A literal that has the shape of an operation is the tuple of that operation. -/
theorem eq_encodeSlot_of_readSlot {e : Engine} {p : Py} {i : Instr} (h : readSlot e p = .ok i) : p = encodeSlot i := by
  unfold readSlot at h
  split at h
  case h_2 => cases h
  case h_1 items =>
    split at h
    case h_2 => cases h
    case h_1 name fields hitems =>
      split at h
      case h_2 => cases h
      case h_1 read hread =>
        obtain ⟨hname, hfields⟩ := opMap_readsOnly e _ (findOp_mem hread) fields i h
        rw [encodeSlot, hname, hfields, ← hitems, Pys.ofList_toList]

/-- Settles O2: `decodeSlot` adds to the shape the checks of WellFormed, the engine's among them. -/
theorem slotHasOneLiteral : Obligations.SlotHasOneLiteral := by
  intro e p i h
  obtain ⟨hshape, hchecks⟩ := decodeSlot_ok h
  exact ⟨eq_encodeSlot_of_readSlot hshape, hchecks⟩

end Sys2Proof
end

section
/-! SUPPORT. The text of a literal (30_encoding.md R93): each token's text is lexed back to the token, and the tokens of
a literal are parsed back to the literal. -/

namespace Sys2Proof

/-! ### From characters to tokens -/

/-- A token the format can write: a condition on the characters of a string only (log entry 9). -/
def Tok.writable : Tok → Bool
  | .str t => writableText t
  | _ => true

theorem lex_blank (cs : Text) : lex .start (32 :: cs) = lex .start cs := by
  simp [lex, lexStart]

/-- The character of a decimal digit. -/
def digitChar (k : Nat) : Byte := BitVec.ofNat 8 (48 + k)

theorem digitChar_toNat {k : Nat} (hk : k < 10) : (digitChar k).toNat = 48 + k := by
  simp only [digitChar, BitVec.toNat_ofNat]
  omega

theorem digitValue_digitChar {k : Nat} (hk : k < 10) : digitValue (digitChar k) = some k := by
  simp only [digitValue, digitChar_toNat hk]
  rw [if_pos (by omega)]
  congr 1
  omega

theorem lexStart_digitChar {k : Nat} (hk : k < 10) : lexStart (digitChar k) = some ([], .num false k) := by
  unfold lexStart
  rw [digitChar_toNat hk, digitValue_digitChar hk]
  interval_cases k <;> rfl

theorem lex_start_digit {k : Nat} (hk : k < 10) (cs : Text) :
    lex .start (digitChar k :: cs) = lex (.num false k) cs := by
  simp [lex, lexStart_digitChar hk]

theorem lex_minus_digit {k : Nat} (hk : k < 10) (cs : Text) :
    lex .minus (digitChar k :: cs) = lex (.num true k) cs := by
  simp [lex, digitValue_digitChar hk]

theorem lex_num_digit {neg : Bool} {v k : Nat} (hv : v ≠ 0) (hk : k < 10) (cs : Text) :
    lex (.num neg v) (digitChar k :: cs) = lex (.num neg (10 * v + k)) cs := by
  simp [lex, digitValue_digitChar hk, hv]

/-- A blank ends a number. -/
theorem lex_num_blank (neg : Bool) (v : Nat) (cs : Text) :
    lex (.num neg v) (32 :: cs) = (lex .start cs).map (.int (signed neg v) :: ·) := by
  simp [lex, digitValue, lexStart]

/-- From a mode in which a digit begins a number, all its digits are read; the fuel suffices, since a number has no more
decimal than binary digits, and no digit follows a leading zero. -/
theorem lex_digitsOf {mode : LexMode} {neg : Bool}
    (hfirst : ∀ k < 10, ∀ cs, lex mode (digitChar k :: cs) = lex (.num neg k) cs) (fuel : Nat) {n : Nat}
    (hn : n < 2 ^ (fuel + 1)) (cs : Text) : lex mode (digitsOf (fuel + 1) n cs) = lex (.num neg n) cs := by
  induction fuel generalizing n cs with
  | zero =>
    have hlast : n / 10 = 0 := by omega
    rw [digitsOf, if_pos hlast, ← digitChar, hfirst _ (Nat.mod_lt _ (by decide))]
    congr
    omega
  | succ fuel ih =>
    rw [digitsOf, ← digitChar]
    by_cases hlast : n / 10 = 0
    · rw [if_pos hlast, hfirst _ (Nat.mod_lt _ (by decide)), Nat.mod_eq_of_lt (by omega)]
    · rw [if_neg hlast, ih (by rw [pow_succ] at hn; omega), lex_num_digit hlast (Nat.mod_lt _ (by decide)),
        Nat.div_add_mod]

theorem digitsOf_append (fuel n : Nat) (acc cs : Text) : digitsOf fuel n acc ++ cs = digitsOf fuel n (acc ++ cs) := by
  induction fuel generalizing n acc with
  | zero => rfl
  | succ fuel ih =>
    simp only [digitsOf]
    split
    · rfl
    · exact ih _ _

theorem lex_natText {mode : LexMode} {neg : Bool}
    (hfirst : ∀ k < 10, ∀ cs, lex mode (digitChar k :: cs) = lex (.num neg k) cs) (n : Nat) (cs : Text) :
    lex mode (natText n ++ 32 :: cs) = (lex .start cs).map (.int (signed neg n) :: ·) := by
  rw [natText, digitsOf_append, List.nil_append, lex_digitsOf hfirst _ Nat.lt_log2_self, lex_num_blank]

/-- The characters of a writable string are read up to the closing quote. -/
theorem lex_str {t : Text} (ht : writableText t = true) (acc cs : Text) :
    lex (.str acc) (t ++ 34 :: cs) = (lex .start cs).map (.str (acc.reverse ++ t) :: ·) := by
  induction t generalizing acc with
  | nil => simp [lex]
  | cons c t ih =>
    simp only [writableText, List.all_cons, Bool.and_eq_true, bne_iff_ne] at ht
    obtain ⟨⟨⟨⟨h34, h92⟩, h10⟩, h13⟩, ht⟩ := ht
    simp only [List.cons_append, lex, h34, h92, h10, h13, if_false, or_self]
    rw [ih ht, List.reverse_cons, List.append_assoc, List.singleton_append]

/-- The text of a token and the blank after it are read as that token. -/
theorem lex_token {t : Tok} (ht : t.writable = true) (cs : Text) :
    lex .start (t.text ++ 32 :: cs) = (lex .start cs).map (t :: ·) := by
  cases t
  case int n =>
    rw [Tok.text]
    split
    case isTrue hneg =>
      have hsign : lex .start (45 :: (natText n.natAbs ++ 32 :: cs)) = lex .minus (natText n.natAbs ++ 32 :: cs) := by
        simp [lex, lexStart]
      have hn : signed true n.natAbs = n := by simp only [signed, if_true]; omega
      rw [List.cons_append, hsign, lex_natText (fun _ => lex_minus_digit), hn]
    case isFalse hpos =>
      have hn : signed false n.natAbs = n := by simp [signed]; omega
      rw [lex_natText (fun _ => lex_start_digit), hn]
  case str t =>
    have hquote : lex .start (34 :: (t ++ [34] ++ 32 :: cs)) = lex (.str []) (t ++ 34 :: 32 :: cs) := by
      simp [lex, lexStart]
    rw [Tok.text, List.cons_append, hquote, lex_str ht, lex_blank]
    rfl
  all_goals simp [Tok.text, lex, lexStart]

theorem lex_textOf {ts : List Tok} (hts : ∀ t ∈ ts, t.writable = true) : lex .start (textOf ts) = some ts := by
  induction ts with
  | nil => rfl
  | cons t ts ih =>
    rw [List.forall_mem_cons] at hts
    have htext : textOf (t :: ts) = t.text ++ 32 :: textOf ts := by simp [textOf]
    rw [htext, lex_token hts.1, ih hts.2, Option.map_some]

/-! ### From tokens to a literal -/

mutual

/-- A literal can be written exactly when each of its tokens can. -/
theorem Py.all_writable_toks : (p : Py) → p.toks.all Tok.writable = p.writable
  | .int _ => rfl
  | .str _ => by simp [Py.toks, Tok.writable, Py.writable]
  | .tup .nil => rfl
  | .tup (.cons x .nil) => by
    simp [Py.toks, Tok.writable, Py.writable, Pys.writable, Py.all_writable_toks x]
  | .tup (.cons x (.cons y ys)) => by
    simp [Py.toks, Tok.writable, Py.writable, Pys.writable.eq_2 x, Py.all_writable_toks x,
      Pys.all_writable_tailToks (.cons y ys)]
  | .list .nil => rfl
  | .list (.cons x xs) => by
    simp [Py.toks, Tok.writable, Py.writable, Pys.writable, Py.all_writable_toks x, Pys.all_writable_tailToks xs]
  | .dict .nil => rfl
  | .dict (.cons k v rest) => by
    simp [Py.toks, Tok.writable, Py.writable, Kvs.writable, Py.all_writable_toks k, Py.all_writable_toks v,
      Kvs.all_writable_tailToks rest]

theorem Pys.all_writable_tailToks : (xs : Pys) → xs.tailToks.all Tok.writable = xs.writable
  | .nil => rfl
  | .cons x xs => by
    simp [Pys.tailToks, Tok.writable, Pys.writable, Py.all_writable_toks x, Pys.all_writable_tailToks xs]

theorem Kvs.all_writable_tailToks : (kvs : Kvs) → kvs.tailToks.all Tok.writable = kvs.writable
  | .nil => rfl
  | .cons k v rest => by
    simp [Kvs.tailToks, Tok.writable, Kvs.writable, Py.all_writable_toks k, Py.all_writable_toks v,
      Kvs.all_writable_tailToks rest]

end

/-! The parser reads the tokens of a literal as one value, from any stack of open brackets (`run_toks`), and the items
after the first of an open bracket up to the bracket that closes it. -/

mutual

theorem Parser.run_toks : (p : Py) → (st : List Frame) → (rest : List Tok) →
    Parser.run ⟨st, none⟩ (p.toks ++ rest) = Parser.run ⟨st, some p⟩ rest
  | .int _, _, _ => rfl
  | .str _, _, _ => rfl
  | .tup .nil, _, _ => rfl
  | .tup (.cons x .nil), st, rest => by
    simp [Py.toks, Parser.run, Parser.feed, Parser.need, Parser.got, Parser.run_toks x, Pys.ofList]
  | .tup (.cons x (.cons y ys)), st, rest => by
    have hcomma : ([] : List Py) ≠ [] ∨ Pys.cons y ys ≠ .nil := .inr (by simp)
    simp [Py.toks, Parser.run, Parser.feed, Parser.need, Parser.run_toks x, Parser.run_tupTail _ _ _ _ _ hcomma,
      Pys.ofList]
  | .list .nil, _, _ => rfl
  | .list (.cons x xs), st, rest => by
    simp [Py.toks, Parser.run, Parser.feed, Parser.need, Parser.run_toks x, Parser.run_listTail xs, Pys.ofList]
  | .dict .nil, _, _ => rfl
  | .dict (.cons k v kvs), st, rest => by
    simp [Py.toks, Parser.run, Parser.feed, Parser.need, Parser.got, Parser.run_toks k, Parser.run_toks v,
      Parser.run_dictTail kvs, Kvs.ofList]

/-- A parenthesis with a comma in it, before or after `v`, is a tuple. -/
theorem Parser.run_tupTail : (xs : Pys) → (done : List Py) → (v : Py) → (st : List Frame) → (rest : List Tok) →
    done ≠ [] ∨ xs ≠ .nil →
    Parser.run ⟨.tup done :: st, some v⟩ (xs.tailToks ++ .rparen :: rest) =
      Parser.run ⟨st, some (.tup (Pys.ofList (done.reverse ++ v :: xs.toList)))⟩ rest
  | .nil, done, v, st, rest, h => by
    obtain ⟨d, ds, rfl⟩ := List.exists_cons_of_ne_nil (h.resolve_right (by simp))
    simp [Pys.tailToks, Parser.run, Parser.feed, Parser.got, Pys.toList]
  | .cons x xs, done, v, st, rest, _ => by
    simp [Pys.tailToks, Parser.run, Parser.feed, Parser.got, Parser.run_toks x, Parser.run_tupTail xs, Pys.toList]

theorem Parser.run_listTail : (xs : Pys) → (done : List Py) → (v : Py) → (st : List Frame) → (rest : List Tok) →
    Parser.run ⟨.list done :: st, some v⟩ (xs.tailToks ++ .rbrack :: rest) =
      Parser.run ⟨st, some (.list (Pys.ofList (done.reverse ++ v :: xs.toList)))⟩ rest
  | .nil, done, v, st, rest => by simp [Pys.tailToks, Parser.run, Parser.feed, Parser.got, Pys.toList]
  | .cons x xs, done, v, st, rest => by
    simp [Pys.tailToks, Parser.run, Parser.feed, Parser.got, Parser.run_toks x, Parser.run_listTail xs, Pys.toList]

theorem Parser.run_dictTail : (kvs : Kvs) → (done : List (Py × Py)) → (k v : Py) → (st : List Frame) →
    (rest : List Tok) →
    Parser.run ⟨.dict done (some k) :: st, some v⟩ (kvs.tailToks ++ .rbrace :: rest) =
      Parser.run ⟨st, some (.dict (Kvs.ofList (done.reverse ++ (k, v) :: kvs.toList)))⟩ rest
  | .nil, done, k, v, st, rest => by simp [Kvs.tailToks, Parser.run, Parser.feed, Parser.got, Kvs.toList]
  | .cons k' v' kvs, done, k, v, st, rest => by
    simp [Kvs.tailToks, Parser.run, Parser.feed, Parser.got, Parser.run_toks k', Parser.run_toks v',
      Parser.run_dictTail kvs, Kvs.toList]

end

/-- Settles O7: the text is lexed back to the tokens of the literal, and they are parsed back to the literal. -/
theorem textOfLiteralReadsBack : Obligations.TextOfLiteralReadsBack := by
  intro p hp
  have hlex : lex .start p.text = some p.toks := by
    rw [← Py.all_writable_toks, List.all_eq_true] at hp
    exact lex_textOf hp
  have hparse : parse p.toks = some p := by
    simpa [parse, Parser.run] using Parser.run_toks p [] []
  simp only [parseText, hlex, hparse]

end Sys2Proof
end

section
/-! SUPPORT. The decoder on bundles (30_encoding.md R80, R81, R90, R95): what stands under each engine's key decides the
bundle, and a decoded bundle passes every check. -/

namespace Sys2Proof

/-! ### Well-formed bundles -/

theorem Engine.mem_order (e : Engine) : e ∈ Engine.order := by
  cases e <;> decide

theorem Bundle.failedCheckAt_eq_none {b : Bundle} {e : Engine} :
    b.failedCheckAt e = none ↔
      (b.slots e).length ≤ slotLimit e ∧ ∀ i ∈ b.slots e, i.engine = e ∧ i.wellFormed = true := by
  unfold Bundle.failedCheckAt
  split
  case isTrue hmany => simp [Nat.not_le.2 hmany]
  case isFalse hfew =>
    simp only [List.findSome?_eq_none_iff, Instr.failedCheck_eq_none, Nat.not_lt.1 hfew, true_and]

/-- What a well-formed bundle has under each engine's key; `Bundle.failedCheck_at` is one half of it. -/
theorem Bundle.wellFormed_iff {b : Bundle} :
    b.wellFormed = true ↔
      ∀ e, (b.slots e).length ≤ slotLimit e ∧ ∀ i ∈ b.slots e, i.engine = e ∧ i.wellFormed = true := by
  simp only [Bundle.wellFormed, Bundle.failedCheck, Option.isNone_iff_eq_none, List.findSome?_eq_none_iff,
    Bundle.failedCheckAt_eq_none, Engine.mem_order, true_imp_iff]

theorem Bundle.wellFormed_of_decodeBundle {p : Py} {b : Bundle} (h : decodeBundle p = .ok b) : b.wellFormed = true :=
  Option.isNone_iff_eq_none.2 (decodeBundle_ok h)

/-- Settles O5: `Bundle.wellFormed_iff` with the checks on each slot written out. -/
theorem decodedBundlesMeetEveryCheck : Obligations.DecodedBundlesMeetEveryCheck := by
  refine ⟨?limits, ?checks, ?decoded⟩
  case limits => decide
  case checks =>
    intro b
    simp only [Bundle.wellFormed_iff, Instr.wellFormed_iff, Instr.keysFit_iff]
  case decoded => exact fun _ _ => Bundle.wellFormed_of_decodeBundle

/-! ### The entries of a dictionary -/

theorem Engine.key_injective : Function.Injective Engine.key := fun e e' =>
  List.inj_on_of_nodup_map (by decide : (Engine.order.map Engine.key).Nodup) e.mem_order e'.mem_order

theorem allDistinct_iff {l : List Py} : allDistinct l = true ↔ l.Nodup := by
  induction l with
  | nil => simp [allDistinct]
  | cons x xs ih => simp [allDistinct, ih]

/-- In a dictionary without repeated keys, the value under an engine's key is the one in the entry with that key. -/
theorem entryUnder_eq_some_iff {e : Engine} {entries : List (Py × Py)} (hnodup : (entries.map Prod.fst).Nodup)
    {v : Py} : entryUnder e entries = some v ↔ (.str e.key, v) ∈ entries := by
  induction entries with
  | nil => simp [entryUnder]
  | cons kv rest ih =>
    obtain ⟨k, w⟩ := kv
    obtain ⟨hk, hrest⟩ := List.nodup_cons.1 hnodup
    rw [entryUnder]
    split
    case isTrue heq =>
      subst heq
      have : (Py.str e.key, v) ∉ rest := fun h => hk (List.mem_map.2 ⟨_, h, rfl⟩)
      simp [this, eq_comm]
    case isFalse hne => simp [ih hrest, Ne.symm hne]

theorem entryUnder_perm {e : Engine} {entries entries' : List (Py × Py)} (hperm : entries.Perm entries')
    (hnodup : (entries.map Prod.fst).Nodup) : entryUnder e entries' = entryUnder e entries := by
  ext v
  rw [entryUnder_eq_some_iff hnodup, entryUnder_eq_some_iff ((hperm.map _).nodup_iff.1 hnodup), hperm.mem_iff]

theorem Engine.forall_iff {P : Engine → Prop} :
    (∀ e, P e) ↔ P .alu ∧ P .valu ∧ P .load ∧ P .store ∧ P .flow ∧ P .debug :=
  ⟨fun h => ⟨h _, h _, h _, h _, h _, h _⟩, fun ⟨h1, h2, h3, h4, h5, h6⟩ e => by cases e <;> assumption⟩

theorem except_bind_eq_ok {ε α β : Type} {x : Except ε α} {f : α → Except ε β} {b : β} :
    x >>= f = .ok b ↔ ∃ a, x = .ok a ∧ f a = .ok b := by
  cases x <;> simp [bind, Except.bind]

/-- The entries make a bundle exactly when the keys are known and distinct and each engine can read what stands under
its key; then that is what the bundle has for the engine. -/
theorem readEntries_eq_ok_iff {entries : List (Py × Py)} {b : Bundle} :
    readEntries entries = .ok b ↔
      (∀ kv ∈ entries, isEngineKey kv.1 = true) ∧ (entries.map Prod.fst).Nodup ∧
        ∀ e, readEngine e entries = .ok (b.entry e) := by
  rw [← List.all_eq_true, ← allDistinct_iff, Engine.forall_iff]
  obtain ⟨alu, valu, load, store, flow, debug⟩ := b
  unfold readEntries
  by_cases hkeys : entries.all (fun kv => isEngineKey kv.1) = true
  case neg => simp [hkeys]
  case pos =>
    by_cases hdistinct : allDistinct (entries.map Prod.fst) = true
    case neg => simp [hkeys, hdistinct]
    case pos => simp [hkeys, hdistinct, except_bind_eq_ok, pure, Except.pure, Bundle.entry]

theorem decodeBundle_dict_eq_ok_iff {entries : List (Py × Py)} {b : Bundle} :
    decodeBundle (.dict (Kvs.ofList entries)) = .ok b ↔ readEntries entries = .ok b ∧ b.wellFormed = true := by
  rw [decodeBundle, Kvs.toList_ofList, Bundle.wellFormed, Option.isNone_iff_eq_none]
  cases readEntries entries with
  | error c => simp
  | ok b' =>
    simp only [Except.ok.injEq]
    constructor
    · intro h
      split at h
      case h_1 => cases h
      case h_2 hcheck => cases h; exact ⟨rfl, hcheck⟩
    · rintro ⟨rfl, hcheck⟩
      rw [hcheck]

/-- Settles O6: known keys, distinct keys and the value under each key are facts of the set of entries. -/
theorem keyOrderHasNoMeaning : Obligations.KeyOrderHasNoMeaning := by
  intro entries entries' b hperm h
  rw [decodeBundle_dict_eq_ok_iff, readEntries_eq_ok_iff] at h ⊢
  obtain ⟨⟨hkeys, hnodup, hentries⟩, hwf⟩ := h
  refine ⟨⟨fun kv hkv => hkeys kv (hperm.mem_iff.2 hkv), (hperm.map _).nodup_iff.1 hnodup, fun e => ?_⟩, hwf⟩
  rw [← hentries e, readEngine, readEngine, entryUnder_perm hperm hnodup]

/-! ### The encoder -/

theorem readSlots_encode {e : Engine} {l : List Instr} (h : ∀ i ∈ l, i.engine = e) :
    readSlots e (l.map encodeSlot) = .ok l := by
  induction l with
  | nil => rfl
  | cons i l ih =>
    obtain ⟨hi, hl⟩ := List.forall_mem_cons.1 h
    subst hi
    simp only [List.map_cons, readSlots, readSlot_encodeSlot, ih hl]

theorem mem_encodeEntry {b : Bundle} {e e' : Engine} {v : Py} :
    (Py.str e.key, v) ∈ encodeEntry b e' ↔
      e' = e ∧ ∃ l, b.entry e = some l ∧ v = .list (Pys.ofList (l.map encodeSlot)) := by
  have hkey : e.key = e'.key ↔ e' = e := by rw [Engine.key_injective.eq_iff, eq_comm]
  unfold encodeEntry
  split
  case h_1 hnone =>
    simp only [List.not_mem_nil, false_iff]
    rintro ⟨rfl, l, hl, -⟩
    simp [hnone] at hl
  case h_2 l hl =>
    simp only [List.mem_singleton, Prod.mk.injEq, Py.str.injEq, hkey]
    refine and_congr_right ?_
    rintro rfl
    simp [hl]

/-- The keys the encoder writes are some of the engines' keys, in their order. -/
theorem encode_keys_sublist (b : Bundle) (es : List Engine) :
    ((es.flatMap (encodeEntry b)).map Prod.fst).Sublist (es.map fun e => Py.str e.key) := by
  induction es with
  | nil => simp
  | cons e es ih =>
    rw [List.flatMap_cons, List.map_append, List.map_cons]
    refine List.Sublist.append (l₂ := [Py.str e.key]) ?_ ih
    unfold encodeEntry
    split <;> simp

theorem encode_keys_nodup (b : Bundle) : ((Engine.order.flatMap (encodeEntry b)).map Prod.fst).Nodup :=
  (encode_keys_sublist b Engine.order).nodup (by decide)

/-- Under an engine's key stands what the encoder writes for it, if the bundle has the key. -/
theorem entryUnder_encode (b : Bundle) (e : Engine) :
    entryUnder e (Engine.order.flatMap (encodeEntry b)) =
      (b.entry e).map (fun l => .list (Pys.ofList (l.map encodeSlot))) := by
  ext v
  rw [entryUnder_eq_some_iff (encode_keys_nodup b)]
  simp [mem_encodeEntry, Engine.mem_order, eq_comm]

theorem readEngine_encode {b : Bundle} {e : Engine} (h : ∀ i ∈ b.slots e, i.engine = e) :
    readEngine e (Engine.order.flatMap (encodeEntry b)) = .ok (b.entry e) := by
  rw [readEngine, entryUnder_encode]
  unfold Bundle.slots at h
  cases hentry : b.entry e with
  | none => rfl
  | some l =>
    have hread : readSlots e (l.map encodeSlot) = .ok l := readSlots_encode (by simpa [hentry] using h)
    simp only [Option.map_some, Pys.toList_ofList, hread]

/-- Settles O4: the keys are known and distinct, and under each stands the engine's own list, which reads back by O1's
`readSlot_encodeSlot` since its operations are the engine's. -/
theorem decodeOfEncodedBundle : Obligations.DecodeOfEncodedBundle := by
  intro b hb
  refine decodeBundle_dict_eq_ok_iff.2
    ⟨readEntries_eq_ok_iff.2 ⟨fun kv hkv => ?known, encode_keys_nodup b, ?entries⟩, hb⟩
  case known =>
    obtain ⟨e, he, hkey⟩ := List.mem_map.1 ((encode_keys_sublist b _).subset (List.mem_map_of_mem hkv))
    exact List.any_eq_true.2 ⟨e, he, by rw [hkey, beq_self_eq_true]⟩
  case entries => exact fun e => readEngine_encode fun i hi => ((Bundle.wellFormed_iff.1 hb e).2 i hi).1

/-- Settles O8: the four texts are fixed, so the decoder is run on them. -/
theorem writtenBundlesDecode : Obligations.WrittenBundlesDecode := by
  unfold Obligations.WrittenBundlesDecode
  decide +kernel

end Sys2Proof
end

section
/-! SUPPORT. The frame of a slot (10_state.md R20, R23): what an operation that answers adds to what is pending, said
once for all 47 operations. -/

namespace Sys2Proof.Machine

/-- `t` is `s` with pending effects added: writes to the cells `cells` and to the addresses `addrs`, in their order, and
`words` words for the trace buffer; the next `pc` is another only if `jump`, the next run state only if `stop`. -/
structure Adds (s t : State) (cells : List Int) (addrs : List Nat) (words : Nat) (jump stop : Bool) : Prop where
  rest : t = { s with pending := t.pending }
  scratch : ∃ ws : List (Nat × Word),
    t.pending.scratch = s.pending.scratch ++ ws ∧ ws.map (fun w => (w.1 : Int)) = cells
  mem : ∃ ws : List (Nat × Word), t.pending.mem = s.pending.mem ++ ws ∧ ws.map Prod.fst = addrs
  trace : ∃ ws, t.pending.trace = s.pending.trace ++ ws ∧ ws.length = words
  nextPc : jump = false → t.pending.nextPc = s.pending.nextPc
  nextRs : stop = false → t.pending.nextRs = s.pending.nextRs
  slot : t.pending.slot = s.pending.slot

section Forms
variable {s t : State} {cells bases : List Int} {d : Int} {jump stop : Bool}

/-! ### The operations on what is pending -/

theorem adds_nothing (s : State) : Adds s s [] [] 0 jump stop :=
  ⟨rfl, ⟨[], by simp⟩, ⟨[], by simp⟩, ⟨[], by simp⟩, fun _ => rfl, fun _ => rfl, rfl⟩

theorem adds_pend (hd : 0 ≤ d) (v : Word) : Adds s (s.pend d v) [d] [] 0 jump stop :=
  ⟨rfl, ⟨_, rfl, by simpa using hd⟩, ⟨[], by simp⟩, ⟨[], by simp⟩, fun _ => rfl, fun _ => rfl, rfl⟩

theorem laneWrites_cells (hd : 0 ≤ d) (v : Nat → Word) :
    (laneWrites d.toNat v).map (fun w => (w.1 : Int)) = vectorCells d := by
  simp [laneWrites, vectorCells, Int.toNat_of_nonneg hd]

theorem adds_pendVector (hd : 0 ≤ d) (v : Nat → Word) :
    Adds s (s.pendVector d v) (vectorCells d) [] 0 jump stop :=
  ⟨rfl, ⟨_, rfl, laneWrites_cells hd v⟩, ⟨[], by simp⟩, ⟨[], by simp⟩, fun _ => rfl, fun _ => rfl, rfl⟩

theorem adds_pendMem (m : Nat) (v : Word) : Adds s (s.pendMem m v) [] [m] 0 jump stop :=
  ⟨rfl, ⟨[], by simp⟩, ⟨_, rfl, rfl⟩, ⟨[], by simp⟩, fun _ => rfl, fun _ => rfl, rfl⟩

theorem adds_pendMemVector (m : Nat) (v : Nat → Word) :
    Adds s (s.pendMemVector m v) [] ((List.range vlen).map (fun k => m + k)) 0 jump stop :=
  ⟨rfl, ⟨[], by simp⟩, ⟨_, rfl, laneWrites_fst m v⟩, ⟨[], by simp⟩, fun _ => rfl, fun _ => rfl, rfl⟩

theorem adds_pendPc (target : Int) : Adds s (s.pendPc target) [] [] 0 true stop :=
  ⟨rfl, ⟨[], by simp⟩, ⟨[], by simp⟩, ⟨[], by simp⟩, fun h => (by cases h), fun _ => rfl, rfl⟩

theorem adds_pendRunState (r : RunState) : Adds s (s.pendRunState r) [] [] 0 jump true :=
  ⟨rfl, ⟨[], by simp⟩, ⟨[], by simp⟩, ⟨[], by simp⟩, fun _ => rfl, fun h => (by cases h), rfl⟩

theorem adds_pendTrace (w : Word) : Adds s (s.pendTrace w) [] [] 1 jump stop :=
  ⟨rfl, ⟨[], by simp⟩, ⟨[], by simp⟩, ⟨_, rfl, rfl⟩, fun _ => rfl, fun _ => rfl, rfl⟩

/-! ### The forms of the operations -/

theorem adds_cell {v : Word} (hd : d ∈ cells) (h : checked cells bases s (.next (s.pend d v)) = .next t) :
    Adds s t [d] [] 0 false false := by
  obtain ⟨hrun, hcells, -⟩ := checked_next h
  cases hrun
  exact adds_pend (hcells d hd).1 v

theorem adds_vector {v : Nat → Word} (hd : d ∈ bases) (h : checked cells bases s (.next (s.pendVector d v)) = .next t) :
    Adds s t (vectorCells d) [] 0 false false := by
  obtain ⟨hrun, -, hbases⟩ := checked_next h
  cases hrun
  exact adds_pendVector (hbases d hd).1 v

theorem adds_aluOp {f : LaneFn} {a b : Int} (h : aluOp f d a b s = .next t) : Adds s t [d] [] 0 false false := by
  obtain ⟨-, hcells, -⟩ := checked_next h
  obtain ⟨v, -, rfl⟩ := aluOp_next h
  exact adds_pend (hcells d (by simp)).1 v

theorem adds_valuOp {f : LaneFn} {a b : Int} (h : valuOp f d a b s = .next t) :
    Adds s t (vectorCells d) [] 0 false false := by
  obtain ⟨-, -, hbases⟩ := checked_next h
  obtain ⟨-, rfl⟩ := valuOp_next h
  exact adds_pendVector (hbases d (by simp)).1 _

theorem adds_loadOp {a : Int} (h : loadOp d a s = .next t) : Adds s t [d] [] 0 false false := by
  obtain ⟨-, hcells, -⟩ := checked_next h
  obtain ⟨-, rfl⟩ := loadOp_next h
  exact adds_pend (hcells d (by simp)).1 _

theorem adds_condJumpOp {c target : Int} (h : condJumpOp c target s = .next t) : Adds s t [] [] 0 true false := by
  rw [condJumpOp_next h]
  split
  · exact adds_pendPc target
  · exact adds_nothing s

/-- A Debug slot that answers has changed nothing, whether it compared or was skipped. -/
theorem debug_next {pairs : List (Int × Key)}
    (h : checked cells bases s (if s.params.enableDebug then compareOp pairs s else .next s) = .next t) : t = s := by
  obtain ⟨hrun, -, -⟩ := checked_next h
  split at hrun
  case isTrue => exact (compareOp_next hrun).1
  case isFalse => cases hrun; rfl

theorem execVload_next {a : Int} (h : execVload d a s = .next t) :
    0 ≤ d ∧ t = s.pendVector d (fun i => s.memAt ((s.x a).toNat + i)) := by
  obtain ⟨hrun, -, hbases⟩ := checked_next h
  obtain ⟨hrun, -⟩ := inMemory_next hrun
  cases hrun
  exact ⟨(hbases d (by simp)).1, rfl⟩

theorem execStore_next {a src : Int} (h : execStore a src s = .next t) :
    (s.x a).toNat < s.params.memSize ∧ t = s.pendMem (s.x a).toNat (s.x src) := by
  obtain ⟨hrun, hm⟩ := inMemory_next (checked_next h).1
  cases hrun
  exact ⟨by simpa using hm 0 (by decide), rfl⟩

theorem execVstore_next {a src : Int} (h : execVstore a src s = .next t) :
    (∀ k < vlen, (s.x a).toNat + k < s.params.memSize) ∧
      t = s.pendMemVector (s.x a).toNat (fun i => s.x (src + i)) := by
  obtain ⟨hrun, hm⟩ := inMemory_next (checked_next h).1
  cases hrun
  exact ⟨hm, rfl⟩

theorem execVcompare_next {l : Int} {ks : List Key} (h : execVcompare l ks s = .next t) : t = s := by
  unfold execVcompare at h
  split at h
  case isTrue => exact debug_next h
  case isFalse => cases h

end Forms

/-- Every operation that answers has added what it names, and no more. -/
theorem exec_adds {i : Instr} {s t : State} (h : exec i s = .next t) :
    Adds s t i.writtenCells (storedAddresses i s) (if i.isTraceWrite then 1 else 0) i.isJump i.isStop := by
  cases i
  case aluAdd | aluSub | aluMul | aluDiv | aluCdiv | aluXor | aluAnd | aluOr | aluShl | aluShr | aluMod | aluLt |
      aluEq =>
    dsimp only [exec] at h
    exact adds_aluOp h
  case valuAdd | valuSub | valuMul | valuDiv | valuCdiv | valuXor | valuAnd | valuOr | valuShl | valuShr | valuMod |
      valuLt | valuEq =>
    dsimp only [exec] at h
    exact adds_valuOp h
  case vbroadcast | multiplyAdd | vselect => exact adds_vector (by simp) h
  case load | loadOffset => exact adds_loadOp h
  case const | select | addImm | coreid => exact adds_cell (by simp) h
  case vload =>
    obtain ⟨hd, rfl⟩ := execVload_next h
    exact adds_pendVector hd _
  case store => rw [(execStore_next h).2]; exact adds_pendMem _ _
  case vstore => rw [(execVstore_next h).2]; exact adds_pendMemVector _ _
  case halt | pause => cases h; exact adds_pendRunState _
  case traceWrite => cases (checked_next h).1; exact adds_pendTrace _
  case condJump | condJumpRel => exact adds_condJumpOp h
  case jump => cases h; exact adds_pendPc _
  case jumpIndirect => cases (checked_next h).1; exact adds_pendPc _
  case compare => rw [debug_next h]; exact adds_nothing s
  case vcompare => rw [execVcompare_next h]; exact adds_nothing s

/-- A store that answers stores to addresses that exist. -/
theorem storedAddresses_lt {i : Instr} {s t : State} (h : exec i s = .next t) :
    ∀ m ∈ storedAddresses i s, m < s.params.memSize := by
  cases i
  case store => simpa [storedAddresses] using (execStore_next h).1
  case vstore => simpa [storedAddresses] using (execVstore_next h).1
  all_goals simp [storedAddresses]

/-- Settles O34: `exec_adds`, which gives the cells as the integers the slot names. -/
theorem slotFrame : Obligations.SlotFrame := by
  intro i s t h
  obtain ⟨rest, ⟨ws, hws, hcells⟩, mem, trace, nextPc, nextRs, slot⟩ := exec_adds h
  refine ⟨rest, ⟨ws, hws, ?_⟩, mem, trace, nextPc, nextRs, slot⟩
  rw [← hcells, List.map_map]
  rfl

end Sys2Proof.Machine
end

section
/-! SUPPORT. What a slot sees of the state (10_state.md R23), and what it does with operands out of range
(30_encoding.md R85). -/

namespace Sys2Proof.Machine

/-! ### Two states that agree on what a slot may see -/

/-- The same pending effects, or the same fault. -/
def SameEffect (o o' : Outcome) : Prop :=
  (∃ t t', o = .next t ∧ o' = .next t' ∧ t.pending = t'.pending) ∨ ∃ r, o = .fault r ∧ o' = .fault r

theorem sameEffect_next {t t' : State} (h : t.pending = t'.pending) : SameEffect (.next t) (.next t') :=
  .inl ⟨t, t', rfl, rfl, h⟩

theorem sameEffect_fault {r r' : Fault} (h : r = r') : SameEffect (.fault r) (.fault r') :=
  .inr ⟨r, rfl, by rw [h]⟩

/-- Everything a slot may see but the scratch space. -/
structure Agree (s s' : State) : Prop where
  mem : s.mem = s'.mem
  pc : s.pc = s'.pc
  params : s.params = s'.params
  pending : s.pending = s'.pending

theorem mem_vectorCells (b : Int) {k : Nat} (hk : k < vlen) : b + (k : Int) ∈ vectorCells b :=
  List.mem_map.2 ⟨k, List.mem_range.2 hk, rfl⟩

theorem laneWrites_congr (a : Nat) {v v' : Nat → Word} (h : ∀ k < vlen, v k = v' k) :
    laneWrites a v = laneWrites a v' :=
  List.map_congr_left fun k hk => by rw [h k (List.mem_range.1 hk)]

section Forms
variable {s s' : State} (hag : Agree s s') {cells bases : List Int} {d : Int}
include hag

theorem same_checked {o o' : Outcome} (h : SameEffect o o') :
    SameEffect (checked cells bases s o) (checked cells bases s' o') := by
  unfold checked
  split
  · exact h
  · exact sameEffect_fault (by rw [hag.pc])

theorem same_inMemory {e : Engine} {m m' n : Nat} {o o' : Outcome} (hm : m = m') (h : SameEffect o o') :
    SameEffect (inMemory e m n s o) (inMemory e m' n s' o') := by
  subst hm
  have hout : s.firstOutside m n = s'.firstOutside m n := by rw [State.firstOutside, hag.params, State.firstOutside]
  unfold inMemory
  rw [← hout]
  split
  · exact sameEffect_fault (by rw [hag.pc, hag.pending])
  · exact h

theorem same_pend {v v' : Word} (hv : v = v') : SameEffect (.next (s.pend d v)) (.next (s'.pend d v')) :=
  sameEffect_next (by rw [State.pend, State.pend, hag.pending, hv])

theorem same_pendVector {v v' : Nat → Word} (hv : ∀ k < vlen, v k = v' k) :
    SameEffect (.next (s.pendVector d v)) (.next (s'.pendVector d v')) :=
  sameEffect_next (by rw [State.pendVector, State.pendVector, hag.pending, laneWrites_congr _ hv])

theorem same_pendPc {p p' : Int} (hp : p = p') : SameEffect (.next (s.pendPc p)) (.next (s'.pendPc p')) :=
  sameEffect_next (by rw [State.pendPc, State.pendPc, hag.pending, hp])

theorem same_aluOp {f : LaneFn} {a b : Int} (hx : ∀ c ∈ [a, b], s.x c = s'.x c) :
    SameEffect (aluOp f d a b s) (aluOp f d a b s') := by
  refine same_checked hag ?_
  rw [hx a (by simp), hx b (by simp)]
  split
  · exact same_pend hag rfl
  · exact sameEffect_fault (by rw [hag.pc, hag.pending])

theorem same_valuOp {f : LaneFn} {a b : Int} (hx : ∀ c ∈ vectorCells a ++ vectorCells b, s.x c = s'.x c) :
    SameEffect (valuOp f d a b s) (valuOp f d a b s') := by
  have hlane (k : Nat) (hk : k < vlen) :
      f (s.x (a + (k : Int))) (s.x (b + (k : Int))) = f (s'.x (a + (k : Int))) (s'.x (b + (k : Int))) := by
    rw [hx _ (List.mem_append_left _ (mem_vectorCells a hk)), hx _ (List.mem_append_right _ (mem_vectorCells b hk))]
  refine same_checked hag ?_
  rw [List.find?_congr (fun k hk => by rw [hlane k (List.mem_range.1 hk)])]
  split
  · exact sameEffect_fault (by rw [hag.pc, hag.pending])
  · exact same_pendVector hag fun k hk => by rw [hlane k hk]

theorem same_loadOp {a : Int} (hx : ∀ c ∈ [a], s.x c = s'.x c) : SameEffect (loadOp d a s) (loadOp d a s') := by
  have ha : s.x a = s'.x a := hx a (by simp)
  exact same_checked hag (same_inMemory hag (by rw [ha])
    (same_pend hag (by rw [ha, State.memAt, hag.mem, State.memAt])))

theorem same_condJumpOp {c p p' : Int} (hx : ∀ k ∈ [c], s.x k = s'.x k) (hp : p = p') :
    SameEffect (condJumpOp c p s) (condJumpOp c p' s') := by
  refine same_checked hag ?_
  rw [hx c (by simp)]
  split
  · exact same_pendPc hag hp
  · exact sameEffect_next hag.pending

theorem same_compareOp {pairs : List (Int × Key)} (hx : ∀ p ∈ pairs, s.x p.1 = s'.x p.1) :
    SameEffect (compareOp pairs s) (compareOp pairs s') := by
  unfold compareOp
  rw [hag.params]
  split
  · exact sameEffect_fault (by rw [hag.pc, hag.pending])
  · rw [List.find?_congr (fun p hp => by rw [hx p hp])]
    split
    · exact sameEffect_fault (by rw [hag.pc, hag.pending])
    · exact sameEffect_next hag.pending

theorem same_debug {pairs : List (Int × Key)} (hx : ∀ p ∈ pairs, s.x p.1 = s'.x p.1) :
    SameEffect (checked cells bases s (if s.params.enableDebug then compareOp pairs s else .next s))
      (checked cells bases s' (if s'.params.enableDebug then compareOp pairs s' else .next s')) := by
  refine same_checked hag ?_
  rw [← hag.params]
  split
  · exact same_compareOp hag hx
  · exact sameEffect_next hag.pending

end Forms

theorem mem_lanePairs {l : Int} {ks : List Key} {p : Int × Key} :
    p ∈ lanePairs l ks ↔ ∃ (n : Nat) (k : Key), ks[n]? = some k ∧ p = (l + (n : Int), k) := by
  simp only [lanePairs, List.mem_map, Prod.exists, List.mem_zipIdx_iff_getElem?, eq_comm (a := p)]
  exact exists_comm

theorem lanePairs_cells {l : Int} {ks : List Key} (hks : ks.length = vlen) {p : Int × Key} (hp : p ∈ lanePairs l ks) :
    p.1 ∈ vectorCells l := by
  obtain ⟨n, k, hk, rfl⟩ := mem_lanePairs.1 hp
  obtain ⟨hn, -⟩ := List.getElem?_eq_some_iff.1 hk
  exact mem_vectorCells l (hks ▸ hn)

/-- Settles O35: each form of operation reads its source cells and, beside them, only what the two states agree on. -/
theorem slotReadsOnlyItsSources : Obligations.SlotReadsOnlyItsSources := by
  intro i s s' hx hmem hpc hparams hpending
  have hag : Agree s s' := ⟨hmem, hpc, hparams, hpending⟩
  change SameEffect (exec i s) (exec i s')
  cases i <;> dsimp only [exec]
  case aluAdd | aluSub | aluMul | aluDiv | aluCdiv | aluXor | aluAnd | aluOr | aluShl | aluShr | aluMod | aluLt |
      aluEq =>
    exact same_aluOp hag hx
  case valuAdd | valuSub | valuMul | valuDiv | valuCdiv | valuXor | valuAnd | valuOr | valuShl | valuShr | valuMod |
      valuLt | valuEq =>
    exact same_valuOp hag hx
  case load | loadOffset => exact same_loadOp hag hx
  case condJump => exact same_condJumpOp hag hx rfl
  case condJumpRel => exact same_condJumpOp hag hx (by rw [hpc, hparams])
  case vbroadcast => exact same_checked hag (same_pendVector hag fun _ _ => hx _ (by simp [Instr.readCells]))
  case multiplyAdd d a b c =>
    refine same_checked hag (same_pendVector hag fun k hk => ?_)
    simp only [Instr.readCells, List.forall_mem_append] at hx
    rw [hx.1.1 _ (mem_vectorCells a hk), hx.1.2 _ (mem_vectorCells b hk), hx.2 _ (mem_vectorCells c hk)]
  case vload d a =>
    have ha : s.x a = s'.x a := hx a (by simp [Instr.readCells])
    exact same_checked hag (same_inMemory hag (by rw [ha]) (same_pendVector hag fun k _ => by
      rw [ha, State.memAt, hmem, State.memAt]))
  case const => exact same_checked hag (same_pend hag rfl)
  case store a src =>
    have ha : s.x a = s'.x a := hx a (by simp [Instr.readCells])
    have hsrc : s.x src = s'.x src := hx src (by simp [Instr.readCells])
    refine same_checked hag (same_inMemory hag (by rw [ha]) (sameEffect_next ?_))
    rw [State.pendMem, State.pendMem, hpending, ha, hsrc]
  case vstore a src =>
    simp only [Instr.readCells, List.forall_mem_cons] at hx
    obtain ⟨ha, hsrc⟩ := hx
    refine same_checked hag (same_inMemory hag (by rw [ha]) (sameEffect_next ?_))
    rw [State.pendMemVector, State.pendMemVector, hpending, ha,
      laneWrites_congr _ fun k hk => hsrc _ (mem_vectorCells src hk)]
  case select d c a b =>
    simp only [Instr.readCells, List.forall_mem_cons] at hx
    obtain ⟨hc, ha, hb, -⟩ := hx
    exact same_checked hag (same_pend hag (by rw [hc, ha, hb]))
  case vselect d c a b =>
    simp only [Instr.readCells, List.forall_mem_append] at hx
    obtain ⟨⟨hc, ha⟩, hb⟩ := hx
    refine same_checked hag (same_pendVector hag fun k hk => ?_)
    rw [hc _ (mem_vectorCells c hk), ha _ (mem_vectorCells a hk), hb _ (mem_vectorCells b hk)]
  case addImm d a imm => exact same_checked hag (same_pend hag (by rw [hx a (by simp [Instr.readCells])]))
  case halt | pause => exact sameEffect_next (by rw [State.pendRunState, State.pendRunState, hpending])
  case traceWrite a =>
    have ha : s.x a = s'.x a := hx a (by simp [Instr.readCells])
    exact same_checked hag (sameEffect_next (by rw [State.pendTrace, State.pendTrace, hpending, ha]))
  case jump => exact same_pendPc hag rfl
  case jumpIndirect a => exact same_checked hag (same_pendPc hag (by rw [hx a (by simp [Instr.readCells])]))
  case coreid => exact same_checked hag (same_pend hag (by rw [hparams]))
  case compare l k => exact same_debug hag fun p hp => hx _ (by simp_all [Instr.readCells])
  case vcompare l ks =>
    unfold execVcompare
    split
    case isTrue hks => exact same_debug hag fun p hp => hx _ (lanePairs_cells hks hp)
    case isFalse => exact sameEffect_fault (by rw [hpc])

/-! ### Operands out of range -/

/-- No ill-formed slot is the reason for a fault. -/
def NotIllFormed (o : Outcome) : Prop := ∀ n c, o ≠ .fault (.illFormedBundle n c)

theorem notIllFormed_next (t : State) : NotIllFormed (.next t) := fun _ _ h => by cases h

theorem notIllFormed_inMemory {e : Engine} {m n : Nat} {s : State} {o : Outcome} (h : NotIllFormed o) :
    NotIllFormed (inMemory e m n s o) := by
  unfold inMemory
  split
  · exact fun _ _ h => by cases h
  · exact h

theorem notIllFormed_compareOp (pairs : List (Int × Key)) (s : State) : NotIllFormed (compareOp pairs s) := by
  unfold compareOp
  split
  · exact fun _ _ h => by cases h
  · split
    · exact fun _ _ h => by cases h
    · exact notIllFormed_next s

theorem notIllFormed_debug (pairs : List (Int × Key)) (s : State) :
    NotIllFormed (if s.params.enableDebug then compareOp pairs s else .next s) := by
  split
  · exact notIllFormed_compareOp pairs s
  · exact notIllFormed_next s

/-- A slot that checks the addresses it names, and has no other reason to be ill-formed. -/
def ChecksFields (cells bases : List Int) (s : State) (o : Outcome) : Prop :=
  ∃ run, o = checked cells bases s run ∧ NotIllFormed run

theorem aluOp_checksFields (f : LaneFn) (d a b : Int) (s : State) : ChecksFields [d, a, b] [] s (aluOp f d a b s) := by
  refine ⟨_, rfl, ?_⟩
  split
  · exact notIllFormed_next _
  · exact fun _ _ h => by cases h

theorem valuOp_checksFields (f : LaneFn) (d a b : Int) (s : State) :
    ChecksFields [] [d, a, b] s (valuOp f d a b s) := by
  refine ⟨_, rfl, ?_⟩
  split
  · exact fun _ _ h => by cases h
  · exact notIllFormed_next _

/-- Every operation whose number of keys fits checks exactly the addresses it names. -/
theorem exec_checksFields {i : Instr} (hkeys : i.keysFit = true) (s : State) :
    ChecksFields i.scalarFields i.vectorFields s (exec i s) := by
  cases i
  case aluAdd | aluSub | aluMul | aluDiv | aluCdiv | aluXor | aluAnd | aluOr | aluShl | aluShr | aluMod | aluLt |
      aluEq =>
    dsimp only [exec]
    exact aluOp_checksFields _ _ _ _ s
  case valuAdd | valuSub | valuMul | valuDiv | valuCdiv | valuXor | valuAnd | valuOr | valuShl | valuShr | valuMod |
      valuLt | valuEq =>
    dsimp only [exec]
    exact valuOp_checksFields _ _ _ _ s
  case vbroadcast | multiplyAdd | const | select | vselect | addImm | traceWrite | jumpIndirect | coreid | halt |
      pause | jump =>
    exact ⟨_, rfl, notIllFormed_next _⟩
  case load | loadOffset | vload | store | vstore => exact ⟨_, rfl, notIllFormed_inMemory (notIllFormed_next _)⟩
  case condJump | condJumpRel =>
    refine ⟨_, rfl, ?_⟩
    split <;> exact notIllFormed_next _
  case compare => exact ⟨_, rfl, notIllFormed_debug _ s⟩
  case vcompare => exact ⟨_, if_pos (by simpa [Instr.keysFit] using hkeys), notIllFormed_debug _ s⟩

/-- The only other reason is the number of keys of a `vcompare`. -/
theorem exec_of_keys_not_fit {i : Instr} (hkeys : i.keysFit = false) (s : State) :
    exec i s = .fault (.illFormedBundle s.pc .operandType) := by
  cases i
  case vcompare => exact if_neg (by simpa [Instr.keysFit] using hkeys)
  all_goals cases hkeys

/-- Settles O36: what an operation checks is what makes it well-formed, and nothing after the checks is ill-formed. -/
theorem illFormedSlotsHaveNoEffect : Obligations.IllFormedSlotsHaveNoEffect := by
  intro i s
  cases hkeys : i.keysFit with
  | false => simp [Instr.wellFormed, hkeys, exec_of_keys_not_fit hkeys s]
  | true =>
    obtain ⟨run, hexec, hrun⟩ := exec_checksFields hkeys s
    have hexec : exec i s = if i.inScratchRange then run else .fault (.illFormedBundle s.pc .scratchRange) := hexec
    rw [hexec, Instr.wellFormed, hkeys, Bool.true_and]
    refine ⟨fun hrange => ⟨.scratchRange, by simp [hrange]⟩, fun hrange => ?_⟩
    rw [if_pos hrange]
    exact hrun

end Sys2Proof.Machine
end

section
/-! SUPPORT. The values and the faults of single slots on operands in range (40_alu.md to 45_debug.md): where the lane
function has no value, an address does not exist, or a Debug entry is missing or differs, which fault is named. -/

namespace Sys2Proof.Machine

/-! ### Lane functions -/

theorem boolWord_decide (p : Prop) [Decidable p] : boolWord (decide p) = if p then 1 else 0 := by
  by_cases hp : p <;> simp [boolWord, hp]

/-- A lane function that has no value exactly where its divisor is 0. -/
def NoneAtZero (f : LaneFn) : Prop := ∀ a b, f a b = none ↔ b = 0

theorem noneAtZero_div : NoneAtZero divLane := fun a b => by rw [divLane, word_eq_zero_iff]; simp

theorem noneAtZero_cdiv : NoneAtZero cdivLane := fun a b => by rw [cdivLane, word_eq_zero_iff]; simp

theorem noneAtZero_mod : NoneAtZero modLane := fun a b => by rw [modLane, word_eq_zero_iff]; simp

theorem NoneAtZero.isSome_iff {f : LaneFn} (hf : NoneAtZero f) {a b : Word} : (f a b).isSome = true ↔ b ≠ 0 := by
  rw [Option.isSome_iff_ne_none, ne_eq, hf]

section Alu
variable {f : LaneFn} {s : State} {d a b : Int}

theorem aluOp_fault (hd : IsCell d) (ha : IsCell a) (hb : IsCell b) (hf : NoneAtZero f) (hzero : s.x b = 0) :
    aluOp f d a b s = .fault (.divideByZero s.pc .alu s.pending.slot none) := by
  have hnone : f (s.x a) (s.x b) = none := (hf _ _).2 hzero
  rw [aluOp, checked_run (by simpa using ⟨hd, ha, hb⟩) (by simp), hnone]

end Alu

/-- Settles O14: one lemma for the three, which have no value exactly at divisor 0. -/
theorem aluDivisionByZeroFaults : Obligations.AluDivisionByZeroFaults := fun _ _ _ _ hd ha hb hzero =>
  ⟨aluOp_fault hd ha hb noneAtZero_div hzero, aluOp_fault hd ha hb noneAtZero_cdiv hzero,
    aluOp_fault hd ha hb noneAtZero_mod hzero⟩

/-- Settles O11: the clauses on counts of 32 or more hold by the test in the lane functions, the others by the value
these have on either side of it. -/
theorem aluShiftsTakeTheWholeCount : Obligations.AluShiftsTakeTheWholeCount := by
  intro s d a b hd ha hb
  refine ⟨⟨_, aluOp_run hd ha hb (f := shlLane) rfl, shl_value _ _⟩,
    ⟨_, aluOp_run hd ha hb (f := shrLane) rfl, shr_value _ _⟩, fun hcount => ⟨?shl, ?shr⟩⟩
  case shl => exact aluOp_run hd ha hb (f := shlLane) (by rw [shlLane, if_pos hcount])
  case shr => exact aluOp_run hd ha hb (f := shrLane) (by rw [shrLane, if_pos hcount])

/-- Settles O12: the comparison's word is `boolWord` of the comparison of the unsigned values. -/
theorem aluComparisons : Obligations.AluComparisons := by
  intro s d a b hd ha hb
  exact ⟨aluOp_run hd ha hb (f := ltLane) (by rw [ltLane, boolWord_decide]),
    aluOp_run hd ha hb (f := eqLane) (by rw [eqLane, boolWord_decide])⟩

/-- Settles O13: no result needs the reduction; quotient and remainder are those of `Nat`, and the ceiling is Mathlib's
`⌈/⌉`, the least number whose product with the divisor reaches the dividend. -/
theorem aluDivisions : Obligations.AluDivisions := by
  intro s d a b hd ha hb hne
  have hB : (s.x b).toNat ≠ 0 := fun h => hne ((word_eq_zero_iff _).2 h)
  have hpos : 0 < (s.x b).toNat := Nat.pos_of_ne_zero hB
  have hq : (Word.ofNatMod ((s.x a).toNat / (s.x b).toNat)).toNat = (s.x a).toNat / (s.x b).toNat :=
    ofNatMod_toNat_of_lt (lt_of_le_of_lt (Nat.div_le_self _ _) (word_lt _))
  have hr : (Word.ofNatMod ((s.x a).toNat % (s.x b).toNat)).toNat = (s.x a).toNat % (s.x b).toNat :=
    ofNatMod_toNat_of_lt (lt_of_le_of_lt (Nat.mod_le _ _) (word_lt _))
  refine ⟨_, _, _, aluOp_run hd ha hb (f := divLane) (if_neg hB), aluOp_run hd ha hb (f := cdivLane) (if_neg hB),
    aluOp_run hd ha hb (f := modLane) (if_neg hB), ?_⟩
  rw [hq, hr, cdiv_value _ _ hB, ← Nat.ceilDiv_eq_add_pred_div]
  refine ⟨Nat.div_add_mod' _ _, Nat.mod_lt _ hpos, ?above, fun n hn => ?least⟩
  case above => simpa [mul_comm] using le_smul_ceilDiv (b := (s.x a).toNat) hpos
  case least => rwa [ceilDiv_le_iff_le_mul hpos, mul_comm]

/-! ### Vectors -/

section Valu
variable {f : LaneFn} {s : State} {d a b : Int} (hd : IsBase d) (ha : IsBase a) (hb : IsBase b)
include hd ha hb

/-- A lane function that always has a value. -/
theorem valuOp_total {g : Word → Word → Word} (hf : ∀ x y, f x y = some (g x y)) :
    ∃ v : Nat → Word, valuOp f d a b s = .next (s.pendVector d v) ∧
      ∀ k : Nat, k < 8 → v k = g (s.x (a + k)) (s.x (b + k)) :=
  ⟨_, valuOp_run hd ha hb (by simp [hf]), by simp [hf]⟩

/-- Where every lane has a value, it is the one the ALU writes with the same function for the cells of the lane. -/
theorem valuOp_lanes (hf : ∀ k : Nat, k < 8 → (f (s.x (a + k)) (s.x (b + k))).isSome = true) :
    ∃ v : Nat → Word, valuOp f d a b s = .next (s.pendVector d v) ∧
      ∀ k : Nat, k < 8 → aluOp f (d + k) (a + k) (b + k) s = .next (s.pend (d + k) (v k)) := by
  refine ⟨_, valuOp_run hd ha hb hf, fun k hk => aluOp_run ?dest ?left ?right ?value⟩
  case value =>
    obtain ⟨w, hw⟩ := Option.isSome_iff_exists.1 (hf k hk)
    rw [hw, Option.getD_some]
  all_goals omega

theorem valuOp_fault (hf : NoneAtZero f) {k : Nat} (hk : k < 8) (hzero : s.x (b + k) = 0)
    (hfirst : ∀ j : Nat, j < k → s.x (b + j) ≠ 0) :
    valuOp f d a b s = .fault (.divideByZero s.pc .valu s.pending.slot (some k)) := by
  have hlane :
      (List.range vlen).find? (fun i : Nat => (f (s.x (a + (i : Int))) (s.x (b + (i : Int)))).isNone) = some k := by
    rw [List.find?_range_eq_some]
    refine ⟨?zero, List.mem_range.2 hk, fun j hj => ?earlier⟩
    case zero => rw [Option.isNone_iff_eq_none, hf, hzero]
    case earlier => simpa using hf.isSome_iff.2 (hfirst j hj)
  rw [valuOp, checked_run (by simp) (by simpa using ⟨hd, ha, hb⟩), hlane]

end Valu

/-- Settles O15: each of the eight lane functions always has a value, which is then reduced or is a bit operation or a
comparison. -/
theorem valuElementwise : Obligations.ValuElementwise := by
  intro s d a b hd ha hb
  refine ⟨?sum, ?difference, ?product, ?xor, ?and, ?or, ?lt, ?eq⟩
  case sum =>
    obtain ⟨v, hexec, hv⟩ := valuOp_total hd ha hb (f := addLane) fun _ _ => rfl
    exact ⟨v, hexec, fun k hk => by rw [hv k hk, ofNatMod_toNat]⟩
  case difference =>
    obtain ⟨v, hexec, hv⟩ := valuOp_total hd ha hb (f := subLane) fun _ _ => rfl
    exact ⟨v, hexec, fun k hk => by rw [hv k hk, ofIntMod_toNat]⟩
  case product =>
    obtain ⟨v, hexec, hv⟩ := valuOp_total hd ha hb (f := mulLane) fun _ _ => rfl
    exact ⟨v, hexec, fun k hk => by rw [hv k hk, ofNatMod_toNat]⟩
  case xor => exact valuOp_total hd ha hb (f := xorLane) fun _ _ => rfl
  case and => exact valuOp_total hd ha hb (f := andLane) fun _ _ => rfl
  case or => exact valuOp_total hd ha hb (f := orLane) fun _ _ => rfl
  case lt => exact valuOp_total hd ha hb (f := ltLane) fun _ _ => by rw [ltLane, boolWord_decide]
  case eq => exact valuOp_total hd ha hb (f := eqLane) fun _ _ => by rw [eqLane, boolWord_decide]

/-- Settles O16: the shifts always have a value, the divisions where the divisor is not 0. -/
theorem valuShiftsAndDivisionsAreAluPerLane : Obligations.ValuShiftsAndDivisionsAreAluPerLane := by
  intro s d a b hd ha hb
  refine ⟨valuOp_lanes hd ha hb (f := shlLane) fun _ _ => rfl, valuOp_lanes hd ha hb (f := shrLane) fun _ _ => rfl, 
    fun hne => ⟨?_, ?_, ?_⟩⟩
  · exact valuOp_lanes hd ha hb fun k hk => noneAtZero_div.isSome_iff.2 (hne k hk)
  · exact valuOp_lanes hd ha hb fun k hk => noneAtZero_cdiv.isSome_iff.2 (hne k hk)
  · exact valuOp_lanes hd ha hb fun k hk => noneAtZero_mod.isSome_iff.2 (hne k hk)

/-- Settles O17: one lemma for the three, as in O14; `find?` over the lanes gives the first. -/
theorem valuDivisionByZeroFaults : Obligations.ValuDivisionByZeroFaults := fun _ _ _ _ _ hd ha hb hk hzero hfirst =>
  ⟨valuOp_fault hd ha hb noneAtZero_div hk hzero hfirst, valuOp_fault hd ha hb noneAtZero_cdiv hk hzero hfirst,
    valuOp_fault hd ha hb noneAtZero_mod hk hzero hfirst⟩

/-! ### Memory -/

/-- The first address outside memory, of an access that reaches beyond the last word, is `MEM_SIZE` or its base. -/
theorem firstOutside_eq_some {s : State} {m n : Nat} (hn : 0 < n) (hout : s.params.memSize < m + n) :
    s.firstOutside m n = some (max m s.params.memSize) := by
  have hfirst : (List.range n).find? ((fun a => decide (s.params.memSize ≤ a)) ∘ fun i => m + i) =
      some (max m s.params.memSize - m) := by
    rw [List.find?_range_eq_some]
    refine ⟨?outside, List.mem_range.2 (by omega), fun j hj => ?inside⟩
    case outside => simp only [Function.comp_apply, decide_eq_true_eq]; omega
    case inside => simp only [Function.comp_apply, Bool.not_eq_true', decide_eq_false_iff_not]; omega
  rw [State.firstOutside, List.find?_map, hfirst, Option.map_some]
  congr 1
  omega

theorem inMemory_fault {e : Engine} {s : State} {m n : Nat} (hn : 0 < n) (hout : s.params.memSize < m + n)
    (run : Outcome) :
    inMemory e m n s run = .fault (.memOutOfRange s.pc e s.pending.slot (max m s.params.memSize)) := by
  rw [inMemory, firstOutside_eq_some hn hout]

section Memory
variable {s : State}

theorem loadOp_run {d a : Int} (hd : IsCell d) (ha : IsCell a) (hm : (s.x a).toNat < s.params.memSize) :
    loadOp d a s = .next (s.pend d (s.memAt (s.x a).toNat)) := by
  rw [loadOp, checked_run (by simpa using ⟨hd, ha⟩) (by simp), inMemory_run (fun i hi => by omega)]

theorem execStore_run {a src : Int} (ha : IsCell a) (hsrc : IsCell src) (hm : (s.x a).toNat < s.params.memSize) :
    execStore a src s = .next (s.pendMem (s.x a).toNat (s.x src)) := by
  rw [execStore, checked_run (by simpa using ⟨ha, hsrc⟩) (by simp), inMemory_run (fun i hi => by omega)]

end Memory

/-- Settles O20: both are `loadOp`, of the two fields or of the two sums. -/
theorem loadsReadTheAddressedWord : Obligations.LoadsReadTheAddressedWord :=
  ⟨fun _ _ _ hd ha hm => loadOp_run hd ha hm, fun _ _ _ _ hd ha hm => loadOp_run hd ha hm, fun _ _ _ _ => rfl⟩

/-- Settles O23: the one address exists, so the access is not refused. -/
theorem storeWritesTheAddressedWord : Obligations.StoreWritesTheAddressedWord :=
  fun _ _ _ ha hsrc hm => execStore_run ha hsrc hm

/-- Settles O21: the 8 addresses exist if the last does, and the values are read lane by lane. -/
theorem vectorTransfersMoveEightWords : Obligations.VectorTransfersMoveEightWords := by
  refine ⟨fun s d a hd ha hm => ⟨_, ?vload, fun _ _ => rfl⟩, fun s a src ha hsrc hm => ⟨_, ?vstore, fun _ _ => rfl⟩⟩
  case vload =>
    show execVload d a s = _
    rw [execVload, checked_run (by simpa using ha) (by simpa using hd), inMemory_run fun i (hi : i < 8) => by omega]
  case vstore =>
    show execVstore a src s = _
    rw [execVstore, checked_run (by simpa using ha) (by simpa using hsrc), inMemory_run fun i (hi : i < 8) => by omega]

/-- Settles O24: the first address outside is the maximum of base and `MEM_SIZE`, for one word the base itself. -/
theorem accessOutsideMemoryFaults : Obligations.AccessOutsideMemoryFaults := by
  refine ⟨fun s p q hp hq hm => ⟨?load, ?store⟩, fun s p q hp hq hm => ⟨?vload, ?vstore⟩⟩
  case load =>
    show loadOp p q s = _
    rw [loadOp, checked_run (by simpa using ⟨hp, hq⟩) (by simp), inMemory_fault (by decide) (by omega), max_eq_left hm]
  case store =>
    show execStore q p s = _
    rw [execStore, checked_run (by simpa using ⟨hq, hp⟩) (by simp), inMemory_fault (by decide) (by omega),
      max_eq_left hm]
  case vload =>
    show execVload p q s = _
    rw [execVload, checked_run (by simpa using hq) (by simpa using hp), inMemory_fault (n := 8) (by decide) (by omega)]
  case vstore =>
    show execVstore q p s = _
    rw [execVstore, checked_run (by simpa using hq) (by simpa using hp), inMemory_fault (n := 8) (by decide) (by omega)]

/-! ### Flow -/

/-- Settles O28: `condJumpOp_run` at the target the operation computes, for each value of `REL_BASE`. -/
theorem relativeJumpCountsFromRelBase : Obligations.RelativeJumpCountsFromRelBase := by
  intro s c o hc
  have hrun := condJumpOp_run hc (s.pc + s.params.relBase.toInt + o) s
  have htaken (hne : s.x c ≠ 0) : (s.x c).toNat ≠ 0 := (word_eq_zero_iff _).not.1 hne
  refine ⟨fun hzero => ?zero, fun hne hbase => ?fromBundle, fun hne hbase => ?fromNext⟩
  case zero => exact hrun.trans (by simp [hzero])
  case fromBundle =>
    have htarget : s.pc + s.params.relBase.toInt + o = s.pc + o := by rw [hbase]; simp [RelBase.toInt]
    exact hrun.trans (by rw [if_pos (htaken hne), htarget])
  case fromNext =>
    have htarget : s.pc + s.params.relBase.toInt + o = s.pc + 1 + o := by rw [hbase]; rfl
    exact hrun.trans (by rw [if_pos (htaken hne), htarget])

/-- Settles O29: each is one unconditional effect on a cell in range. -/
theorem traceWriteAndCoreId : Obligations.TraceWriteAndCoreId :=
  ⟨fun s _ ha => checked_run (by simpa using ha) (by simp) s _,
    fun s _ hd => checked_run (by simpa using hd) (by simp) s _⟩

/-! ### Debug -/

section Debug
variable {s : State} (hdebug : s.params.enableDebug = true)
include hdebug

theorem execCompare_enabled {l : Int} (hl : IsCell l) (k : Key) : execCompare l k s = compareOp [(l, k)] s := by
  rw [execCompare, checked_run (by simpa using hl) (by simp), if_pos hdebug]

theorem execVcompare_enabled {l : Int} (hl : IsBase l) {ks : List Key} (hks : ks.length = 8) :
    execVcompare l ks s = compareOp (lanePairs l ks) s := by
  rw [execVcompare, if_pos hks, checked_run (by simp) (by simpa using hl), if_pos hdebug]

end Debug

/-- A key that `VALUE_TRACE` lacks faults whatever the cells hold; the first such is named. -/
theorem compareOp_missing {pairs : List (Int × Key)} {s : State} (h : ∃ p ∈ pairs, s.params.traceAt p.2 = none) :
    ∃ p ∈ pairs, s.params.traceAt p.2 = none ∧
      compareOp pairs s = .fault (.debugKeyMissing s.pc s.pending.slot p.2) := by
  obtain ⟨q, hq, hmissing⟩ := h
  cases hfind : pairs.find? (fun p => (s.params.traceAt p.2).isNone) with
  | none => exact absurd hmissing (by simpa using List.find?_eq_none.1 hfind q hq)
  | some p =>
    exact ⟨p, List.mem_of_find?_eq_some hfind, by simpa using List.find?_some hfind, by rw [compareOp, hfind]⟩

/-- With every key present, a cell that differs from its entry faults; the first such is named. -/
theorem compareOp_differs {pairs : List (Int × Key)} {s : State} (hkeys : ∀ p ∈ pairs, s.params.traceAt p.2 ≠ none)
    (h : ∃ p ∈ pairs, s.params.traceAt p.2 ≠ some ((s.x p.1).toNat : Int)) :
    ∃ p ∈ pairs, s.params.traceAt p.2 ≠ some ((s.x p.1).toNat : Int) ∧
      compareOp pairs s = .fault (.debugAssertFailed s.pc s.pending.slot p.1.toNat p.2) := by
  obtain ⟨q, hq, hdiffers⟩ := h
  have hpresent : pairs.find? (fun p => (s.params.traceAt p.2).isNone) = none :=
    List.find?_eq_none.2 fun p hp => by simpa using hkeys p hp
  cases hfind : pairs.find? (fun p => decide (s.params.traceAt p.2 ≠ some ((s.x p.1).toNat : Int))) with
  | none => exact absurd hdiffers (by simpa using List.find?_eq_none.1 hfind q hq)
  | some p =>
    exact ⟨p, List.mem_of_find?_eq_some hfind, by simpa using List.find?_some hfind, by rw [compareOp, hpresent, hfind]⟩

/-- Settles O31: `compare` has the one pair of its cell and key, `vcompare` those of its lanes. -/
theorem assertionsThatHoldChangeNothing : Obligations.AssertionsThatHoldChangeNothing := by
  refine ⟨fun s l k hl hdebug hk => ?compare, fun s l ks hl hlen hdebug hks => ?vcompare⟩
  case compare => exact (execCompare_enabled hdebug hl k).trans (compareOp_run (by simpa using hk))
  case vcompare =>
    refine (execVcompare_enabled hdebug hl hlen).trans (compareOp_run fun p hp => ?_)
    obtain ⟨n, k, hk, rfl⟩ := mem_lanePairs.1 hp
    exact hks n k hk

/-- Settles O32: `compare` has the one pair of its cell and key, `vcompare` those of its lanes. -/
theorem assertionsThatFailFault : Obligations.AssertionsThatFailFault := by
  refine ⟨fun s l k hl hdebug => ?compare, fun s l ks hl hlen hdebug => ?vcompare⟩
  case compare =>
    have hexec : exec (.compare l k) s = compareOp [(l, k)] s := execCompare_enabled hdebug hl k
    rw [hexec]
    refine ⟨fun hnone => ?missing, fun z hz hne => ?differs⟩
    case missing => simpa [hnone] using compareOp_missing (s := s) (pairs := [(l, k)]) (by simpa using hnone)
    case differs =>
      simpa [hz, hne] using compareOp_differs (s := s) (pairs := [(l, k)]) (by simp [hz]) (by simp [hz, hne])
  case vcompare =>
    have hexec : exec (.vcompare l ks) s = compareOp (lanePairs l ks) s := execVcompare_enabled hdebug hl hlen
    rw [hexec]
    refine ⟨fun ⟨k, hk, hnone⟩ => ?missing, fun hkeys ⟨n, k, hk, hne⟩ => ?differs⟩
    case missing =>
      obtain ⟨n, hn⟩ := List.getElem?_of_mem hk
      obtain ⟨p, hp, hnone, hfault⟩ := compareOp_missing ⟨_, mem_lanePairs.2 ⟨n, k, hn, rfl⟩, hnone⟩
      obtain ⟨n', k', hk', rfl⟩ := mem_lanePairs.1 hp
      exact ⟨k', List.mem_of_getElem? hk', hnone, hfault⟩
    case differs =>
      have hpresent : ∀ p ∈ lanePairs l ks, s.params.traceAt p.2 ≠ none := fun p hp => by
        obtain ⟨n', k', hk', rfl⟩ := mem_lanePairs.1 hp
        exact hkeys k' (List.mem_of_getElem? hk')
      obtain ⟨p, hp, hne, hfault⟩ := compareOp_differs hpresent ⟨_, mem_lanePairs.2 ⟨n, k, hk, rfl⟩, hne⟩
      obtain ⟨n', k', hk', rfl⟩ := mem_lanePairs.1 hp
      exact ⟨n', k', hk', hne, hfault⟩

end Sys2Proof.Machine
end

section
/-! SUPPORT. The bundle step (20_memory.md R56 to R59) as the sum of its slots taken alone: the effects a bundle leaves
pending, field by field, and the two ends of its evaluation. -/

namespace Sys2Proof.Machine

/-! ### The effect of one slot taken alone -/

theorem slotEffect_of_next {i : Instr} {s t : State} (h : exec i s.beginCycle = .next t) :
    slotEffect i s = t.pending := by
  rw [slotEffect, h]

theorem storedAddresses_beginCycle (i : Instr) (s : State) : storedAddresses i s.beginCycle = storedAddresses i s := rfl

/-- A slot leaves nothing pending or, if it answers, what `exec_adds` says. -/
theorem slotEffect_adds (i : Instr) (s : State) :
    slotEffect i s = Pending.empty ∨
      ((∀ m ∈ storedAddresses i s, m < s.params.memSize) ∧
        Adds s.beginCycle { s with pending := slotEffect i s } i.writtenCells (storedAddresses i s)
          (if i.isTraceWrite then 1 else 0) i.isJump i.isStop) := by
  cases h : exec i s.beginCycle with
  | next t =>
    have hadds := exec_adds h
    have hlt := storedAddresses_lt h
    rw [storedAddresses_beginCycle] at hadds hlt
    rw [slotEffect_of_next h]
    have ht : t = { s with pending := t.pending } := hadds.rest
    rw [ht] at hadds
    exact .inr ⟨hlt, hadds⟩
  | fault r => exact .inl (by rw [slotEffect, h])
  | refused r => exact .inl (by rw [slotEffect, h])

theorem slotEffect_nextPc {i : Instr} (hi : i.isJump = false) (s : State) : (slotEffect i s).nextPc = none := by
  rcases slotEffect_adds i s with h | ⟨-, h⟩
  · rw [h]; rfl
  · exact h.nextPc hi

theorem slotEffect_nextRs {i : Instr} (hi : i.isStop = false) (s : State) : (slotEffect i s).nextRs = .running := by
  rcases slotEffect_adds i s with h | ⟨-, h⟩
  · rw [h]; rfl
  · exact h.nextRs hi

theorem slotEffect_trace_length (i : Instr) (s : State) :
    (slotEffect i s).trace.length ≤ if i.isTraceWrite then 1 else 0 := by
  rcases slotEffect_adds i s with h | ⟨-, h⟩
  · simp [h]
  · obtain ⟨ws, hws, hlen⟩ := h.trace
    have hws : (slotEffect i s).trace = ws := hws
    rw [hws, hlen]

theorem slotEffect_scratch_mem {i : Instr} {s : State} {w : Nat × Word} (hw : w ∈ (slotEffect i s).scratch) :
    (w.1 : Int) ∈ i.writtenCells := by
  rcases slotEffect_adds i s with h | ⟨-, h⟩
  · simp [h] at hw
  · obtain ⟨ws, hws, hcells⟩ := h.scratch
    have hws : (slotEffect i s).scratch = ws := hws
    rw [← hcells]
    exact List.mem_map_of_mem (hws ▸ hw)

theorem slotEffect_mem_mem {i : Instr} {s : State} {w : Nat × Word} (hw : w ∈ (slotEffect i s).mem) :
    w.1 ∈ storedAddresses i s ∧ w.1 < s.params.memSize := by
  rcases slotEffect_adds i s with h | ⟨hlt, h⟩
  · simp [h] at hw
  · obtain ⟨ws, hws, haddrs⟩ := h.mem
    have hws : (slotEffect i s).mem = ws := hws
    have hmem : w.1 ∈ storedAddresses i s := by
      rw [← haddrs]
      exact List.mem_map_of_mem (hws ▸ hw)
    exact ⟨hmem, hlt _ hmem⟩

/-! ### The effects of a bundle -/

/-- What the slots of a bundle leave pending, one added to the other in the processing order. -/
def bundleEffect (b : Bundle) (s : State) : Pending := (schedule b).foldl (afterSlot s) Pending.empty

section Fold
variable (s : State) (slots : List (Instr × Nat)) (p : Pending)

theorem foldl_afterSlot_scratch :
    (slots.foldl (afterSlot s) p).scratch =
      p.scratch ++ (slots.map Prod.fst).flatMap fun i => (slotEffect i s).scratch := by
  induction slots generalizing p with
  | nil => simp
  | cons x slots ih => simp [ih, afterSlot, Pending.join]

theorem foldl_afterSlot_mem :
    (slots.foldl (afterSlot s) p).mem = p.mem ++ (slots.map Prod.fst).flatMap fun i => (slotEffect i s).mem := by
  induction slots generalizing p with
  | nil => simp
  | cons x slots ih => simp [ih, afterSlot, Pending.join]

theorem foldl_afterSlot_trace :
    (slots.foldl (afterSlot s) p).trace = p.trace ++ (slots.map Prod.fst).flatMap fun i => (slotEffect i s).trace := by
  induction slots generalizing p with
  | nil => simp
  | cons x slots ih => simp [ih, afterSlot, Pending.join]

end Fold

@[simp] theorem bundleEffect_scratch (b : Bundle) (s : State) :
    (bundleEffect b s).scratch = bundleScratchWrites b s := by
  rw [bundleEffect, foldl_afterSlot_scratch, schedule_slots]
  rfl

@[simp] theorem bundleEffect_mem (b : Bundle) (s : State) : (bundleEffect b s).mem = bundleMemWrites b s := by
  rw [bundleEffect, foldl_afterSlot_mem, schedule_slots]
  rfl

@[simp] theorem bundleEffect_trace (b : Bundle) (s : State) : (bundleEffect b s).trace = bundleTrace b s := by
  rw [bundleEffect, foldl_afterSlot_trace, schedule_slots]
  rfl

theorem bundleScratchWrites_mem {b : Bundle} {s : State} {w : Nat × Word} (hw : w ∈ bundleScratchWrites b s) :
    (w.1 : Int) ∈ b.writtenCells := by
  obtain ⟨i, hi, hw⟩ := List.mem_flatMap.1 hw
  exact List.mem_flatMap.2 ⟨i, hi, slotEffect_scratch_mem hw⟩

theorem bundleMemWrites_mem {b : Bundle} {s : State} {w : Nat × Word} (hw : w ∈ bundleMemWrites b s) :
    w.1 ∈ bundleStores b s ∧ w.1 < s.params.memSize := by
  obtain ⟨i, hi, hw⟩ := List.mem_flatMap.1 hw
  obtain ⟨hstored, hlt⟩ := slotEffect_mem_mem hw
  exact ⟨List.mem_flatMap.2 ⟨i, hi, hstored⟩, hlt⟩

/-! Jumps, stops and words for the trace buffer come from the Flow engine only, which has at most one slot (R83). -/

theorem quiet_of_engine_ne_flow {i : Instr} (hi : i.engine ≠ .flow) :
    i.isJump = false ∧ i.isStop = false ∧ i.isTraceWrite = false := by
  cases i
  case condJump | condJumpRel | jump | jumpIndirect | halt | pause | traceWrite => exact absurd rfl hi
  all_goals exact ⟨rfl, rfl, rfl⟩

theorem foldl_afterSlot_quiet (s : State) {slots : List (Instr × Nat)} (h : ∀ x ∈ slots, x.1.engine ≠ .flow)
    (p : Pending) :
    (slots.foldl (afterSlot s) p).nextPc = p.nextPc ∧ (slots.foldl (afterSlot s) p).nextRs = p.nextRs := by
  induction slots generalizing p with
  | nil => exact ⟨rfl, rfl⟩
  | cons x slots ih =>
    obtain ⟨hx, hslots⟩ := List.forall_mem_cons.1 h
    obtain ⟨hjump, hstop, -⟩ := quiet_of_engine_ne_flow hx
    simp [ih hslots, afterSlot, Pending.join, slotEffect_nextPc hjump, hstop]

/-- The schedule, at its Flow slots. -/
theorem schedule_split (b : Bundle) :
    schedule b = [Engine.alu, .valu, .load, .store].flatMap (engineSlots b) ++
      (engineSlots b .flow ++ engineSlots b .debug) := by
  simp [schedule, Engine.order]

section WellFormed
variable {b : Bundle} (hb : b.wellFormed = true)
include hb

theorem engine_of_mem_engineSlots {e : Engine} {x : Instr × Nat} (hx : x ∈ engineSlots b e) : x.1.engine = e :=
  ((Bundle.wellFormed_iff.1 hb e).2 _ (List.fst_mem_of_mem_zipIdx hx)).1

/-- A bundle has one Flow slot or none. -/
theorem flow_slots : b.slots .flow = [] ∨ ∃ i, b.slots .flow = [i] := by
  have hlen : (b.slots .flow).length ≤ 1 := (Bundle.wellFormed_iff.1 hb .flow).1
  match b.slots .flow, hlen with
  | [], _ => exact .inl rfl
  | [i], _ => exact .inr ⟨i, rfl⟩

/-- The next `pc` and the next run state are decided by the Flow slot, evaluated where neither is set. -/
theorem bundleEffect_at_flow (s : State) : ∃ q : Pending, q.nextPc = none ∧ q.nextRs = .running ∧
    (bundleEffect b s).nextPc = ((engineSlots b .flow).foldl (afterSlot s) q).nextPc ∧
    (bundleEffect b s).nextRs = ((engineSlots b .flow).foldl (afterSlot s) q).nextRs := by
  have hbefore : ∀ x ∈ [Engine.alu, .valu, .load, .store].flatMap (engineSlots b), x.1.engine ≠ .flow := by
    intro x hx
    obtain ⟨e, he, hx⟩ := List.mem_flatMap.1 hx
    rw [engine_of_mem_engineSlots hb hx]
    rintro rfl
    simp at he
  have hafter : ∀ x ∈ engineSlots b .debug, x.1.engine ≠ .flow := fun x hx => by
    rw [engine_of_mem_engineSlots hb hx]; decide
  obtain ⟨hpc, hrs⟩ := foldl_afterSlot_quiet s hbefore Pending.empty
  rw [bundleEffect, schedule_split, List.foldl_append, List.foldl_append]
  exact ⟨_, hpc, hrs, foldl_afterSlot_quiet s hafter _⟩

theorem bundleEffect_flow (s : State) :
    (bundleEffect b s).nextPc = (b.slots .flow).head?.bind (fun i => (slotEffect i s).nextPc) ∧
      (bundleEffect b s).nextRs = ((b.slots .flow).head?.map (fun i => (slotEffect i s).nextRs)).getD .running := by
  obtain ⟨q, hqpc, hqrs, hpc, hrs⟩ := bundleEffect_at_flow hb s
  rw [hpc, hrs]
  rcases flow_slots hb with hflow | ⟨i, hflow⟩
  · simp [engineSlots, hflow, hqpc, hqrs]
  · cases hstop : i.isStop with
    | true => simp [engineSlots, hflow, afterSlot, Pending.join, hqpc, hstop]
    | false => simp [engineSlots, hflow, afterSlot, Pending.join, hqpc, hqrs, hstop, slotEffect_nextRs hstop]

/-- One word at most goes to the trace buffer. -/
theorem bundleTrace_length (s : State) : (bundleTrace b s).length ≤ 1 := by
  have hquiet (e : Engine) (he : e ≠ .flow) : (b.slots e).flatMap (fun i => (slotEffect i s).trace) = [] := by
    refine List.flatMap_eq_nil_iff.2 fun i hi => List.eq_nil_of_length_eq_zero ?_
    have hengine : i.engine = e := ((Bundle.wellFormed_iff.1 hb e).2 i hi).1
    obtain ⟨-, -, htrace⟩ := quiet_of_engine_ne_flow (hengine ▸ he)
    simpa [htrace] using slotEffect_trace_length i s
  have hflow : bundleTrace b s = (b.slots .flow).flatMap fun i => (slotEffect i s).trace := by
    simp [bundleTrace, Bundle.allSlots, Engine.order, hquiet]
  rw [hflow]
  rcases flow_slots hb with h | ⟨i, h⟩
  · simp [h]
  · rw [h, List.flatMap_singleton]
    exact (slotEffect_trace_length i s).trans (by split <;> decide)

end WellFormed

/-! ### The two ends of a bundle -/

theorem mem_allSlots_of_mem_schedule {b : Bundle} {x : Instr × Nat} (hx : x ∈ schedule b) : x.1 ∈ b.allSlots :=
  schedule_slots b ▸ List.mem_map_of_mem hx

theorem exists_mem_schedule {b : Bundle} {i : Instr} (hi : i ∈ b.allSlots) : ∃ x ∈ schedule b, x.1 = i :=
  List.mem_map.1 (schedule_slots b ▸ hi)

/-- Every slot of the bundle answers from the start of the cycle. -/
def AllAnswer (b : Bundle) (s : State) : Prop := ∀ i ∈ b.allSlots, ∃ t, exec i s.beginCycle = .next t

theorem runSlots_schedule {b : Bundle} {s : State} (h : AllAnswer b s) :
    runSlots (schedule b) s.beginCycle = .next { s with pending := bundleEffect b s } :=
  runSlots_all s (schedule b) (fun _ hx => h _ (mem_allSlots_of_mem_schedule hx)) Pending.empty

theorem runSlots_schedule_fault {b : Bundle} {s : State} (h : ¬ AllAnswer b s) :
    ∃ r, runSlots (schedule b) s.beginCycle = .fault r := by
  simp only [AllAnswer, not_forall, not_exists] at h
  obtain ⟨i, hi, hfail⟩ := h
  obtain ⟨x, hx, rfl⟩ := exists_mem_schedule hi
  exact runSlots_fault s (schedule b) ⟨x, hx, hfail⟩ Pending.empty

/-- The state after a bundle whose slots all answer. -/
def committed (b : Bundle) (s : State) : State := State.commit { s with pending := bundleEffect b s } b.counts

theorem runBundle_committed {b : Bundle} {s : State} (h : AllAnswer b s) : runBundle b s = .next (committed b s) := by
  rw [runBundle, runSlots_schedule h]
  rfl

theorem runBundle_fault {b : Bundle} {s : State} (h : ¬ AllAnswer b s) :
    ∃ r, runBundle b s = .next (s.takeFault r) := by
  obtain ⟨r, hr⟩ := runSlots_schedule_fault h
  exact ⟨r, by rw [runBundle, hr]⟩

/-! ### The state after a bundle, field by field -/

theorem Fetches.wellFormed {s : State} {b : Bundle} (hf : Fetches s b) : b.wellFormed = true := by
  obtain ⟨lit, -, hdecode⟩ := hf
  exact Bundle.wellFormed_of_decodeBundle hdecode

section Committed
variable (b : Bundle) (s : State)

theorem committed_x {a : Nat} (ha : a < 1536) :
    (committed b s).x a = (lastWrite (bundleScratchWrites b s) a).getD (s.x a) := by
  rw [← bundleEffect_scratch]
  exact read_applyScratch _ _ a ha

theorem committed_memAt (hm : Mem.wf s.mem) (m : Nat) :
    (committed b s).memAt m = (lastWrite (bundleMemWrites b s) m).getD (s.memAt m) := by
  rw [← bundleEffect_mem]
  exact Mem.read_applyMem _ hm m

theorem committed_traceBuf : (committed b s).traceBuf = s.traceBuf ++ bundleTrace b s := by
  rw [← bundleEffect_trace]
  rfl

theorem committed_pc : (committed b s).pc = (bundleEffect b s).nextPc.getD (s.pc + 1) := rfl

theorem committed_runState : (committed b s).runState = (bundleEffect b s).nextRs := rfl

theorem committed_cycle : (committed b s).cycle = s.cycle + if b.counts then 1 else 0 := by
  show (if b.counts then s.cycle + 1 else s.cycle) = _
  split <;> rfl

end Committed

/-- Settles O38: the state is `committed b s`, read field by field. -/
theorem bundleReadsThenCommits : Obligations.BundleReadsThenCommits := by
  intro s b hr hm hf hall
  obtain ⟨hpc, hrs⟩ := bundleEffect_flow hf.wellFormed s
  refine ⟨committed b s, by rw [step_bundle hr hf, runBundle_committed hall], fun a ha => committed_x b s ha,
    committed_memAt b s hm, committed_traceBuf b s, ?pc, ?runState, committed_cycle b s, rfl, hr.noFault, rfl, rfl,
    ?inRun⟩
  case pc => rw [committed_pc, hpc]
  case runState => rw [committed_runState, hrs]
  case inRun => exact decide_eq_true_iff

/-- Settles O39: a slot that does not answer alone does not answer in its place, so the evaluation faults. -/
theorem faultingBundleCommitsNothing : Obligations.FaultingBundleCommitsNothing := by
  intro s b hr hf ⟨i, hi, hfail⟩
  obtain ⟨r, h⟩ := runBundle_fault (b := b) (s := s) fun hall => by
    obtain ⟨t, ht⟩ := hall i hi
    exact hfail t ht
  exact ⟨r, by rw [step_bundle hr hf, h]; rfl⟩

/-- What a step of a core that executes does with the bundle it fetches. -/
theorem step_bundle_cases {b : Bundle} {s t : State} (hr : Ready s) (hf : Fetches s b) (h : step s = .next t) :
    t = committed b s ∨ ∃ r, t = s.takeFault r := by
  rw [step_bundle hr hf] at h
  by_cases hall : AllAnswer b s
  · rw [runBundle_committed hall] at h
    cases h
    exact .inl rfl
  · obtain ⟨r, hfault⟩ := runBundle_fault hall
    rw [hfault] at h
    cases h
    exact .inr ⟨r, rfl⟩

/-- Settles O40: a faulting bundle changes no cell and no word; one that commits writes what its slots name. -/
theorem bundleFrame : Obligations.BundleFrame := by
  intro s t b hr hf h
  rcases step_bundle_cases hr hf h with rfl | ⟨r, rfl⟩
  case inr => exact ⟨fun _ _ => rfl, fun _ _ => rfl⟩
  case inl =>
    refine ⟨fun a ha => ?cell, fun m hm => ?word⟩
    case cell =>
      refine read_applyScratch_other _ _ _ fun hmem => ha ?_
      obtain ⟨w, hw, rfl⟩ := List.mem_map.1 hmem
      exact bundleScratchWrites_mem (bundleEffect_scratch b s ▸ hw)
    case word =>
      refine Mem.read_applyMem_other _ _ _ fun hmem => hm ?_
      obtain ⟨w, hw, rfl⟩ := List.mem_map.1 hmem
      exact (bundleMemWrites_mem (bundleEffect_mem b s ▸ hw)).1

/-- Settles O37: `step_bundle`; the one slot of a bundle is evaluated at place 0, where the cycle begins. -/
theorem stepRunsTheDecodedBundle : Obligations.StepRunsTheDecodedBundle := by
  have hbundle (s t : State) (b : Bundle) (hr : Ready s) (hf : Fetches s b)
      (h : runSlots (schedule b) s.beginCycle = .next t) : step s = .next (t.commit b.counts) := by
    rw [step_bundle hr hf, runBundle, h]
  refine ⟨hbundle, fun s t i hr hf h => ?_⟩
  have hschedule : schedule (Bundle.single i) = [(i, 0)] := by
    unfold Bundle.single
    split <;> rfl
  have hcounts : (Bundle.single i).counts = decide (i.engine ≠ .debug) := by
    unfold Bundle.single
    split <;> simp_all [Bundle.counts, Bundle.empty]
  rw [← hcounts]
  refine hbundle s t _ hr hf ?_
  have hslot : exec i (s.beginCycle.atSlot 0) = .next t := h
  rw [hschedule, runSlots, hslot]
  rfl

/-- Settles O44: there is no slot to evaluate, and the commit of nothing moves the `pc` and counts by the keys. -/
theorem emptyBundlesMoveThePcOnly : Obligations.EmptyBundlesMoveThePcOnly := by
  intro s hr
  have hcommit (b : Bundle) (hb : schedule b = []) (hf : Fetches s b) :
      step s = .next
        { s with pending := Pending.empty, pc := s.pc + 1, cycle := s.cycle + if b.counts then 1 else 0 } := by
    have hcycle : (if b.counts then s.cycle + 1 else s.cycle) = s.cycle + if b.counts then 1 else 0 := by split <;> rfl
    rw [step_bundle hr hf, runBundle, hb, ← hcycle]
    simp [runSlots, State.commit, State.beginCycle, hr.running, hr.inRun]
  exact ⟨fun hf => hcommit _ rfl hf, fun hf => hcommit _ rfl hf, fun hf => hcommit _ rfl hf⟩

/-! ### Halt and pause -/

/-- The end of a bundle whose Flow slot sets the run state and no `pc`. -/
theorem committed_stop {b : Bundle} {s : State} {i : Instr} {r : RunState} (hb : b.wellFormed = true)
    (hflow : b.flow = some [i]) (heffect : slotEffect i s = { Pending.empty with nextRs := r }) :
    (committed b s).runState = r ∧ (committed b s).pc = s.pc + 1 ∧ (committed b s).cycle = s.cycle + 1 ∧
      (committed b s).inRun = decide (r = .running) := by
  have hslots : b.slots .flow = [i] := by simp [Bundle.slots, Bundle.entry, hflow]
  have hcounts : b.counts = true := by simp [Bundle.counts, hflow]
  obtain ⟨hpc, hrs⟩ := bundleEffect_flow hb s
  have hpc : (bundleEffect b s).nextPc = none := by simp [hpc, hslots, heffect]
  have hrs : (bundleEffect b s).nextRs = r := by simp [hrs, hslots, heffect]
  exact ⟨hrs, by simp [committed_pc, hpc], by simp [committed_cycle, hcounts], by simp [committed, hrs]⟩

/-- Settles O30: the one Flow slot decides the run state, and neither `halt` nor `pause` sets a `pc`. -/
theorem haltAndPauseEndTheRun : Obligations.HaltAndPauseEndTheRun := by
  refine ⟨fun s => ⟨rfl, rfl⟩, fun s t b hr hf h hfault => ?_⟩
  rcases step_bundle_cases hr hf h with rfl | ⟨r, rfl⟩
  case inr => cases hfault
  case inl =>
    refine ⟨fun hflow => ?halt, fun hflow => ?pause⟩
    case halt =>
      obtain ⟨hrs, hrest⟩ := committed_stop (s := s) (r := .stopped) hf.wellFormed hflow rfl
      exact ⟨⟨hrs, hfault⟩, hrest⟩
    case pause =>
      obtain ⟨hrs, hrest⟩ := committed_stop (s := s) (r := .paused) hf.wellFormed hflow rfl
      exact ⟨⟨hrs, hfault⟩, hrest⟩

/-! ### Disabled Debug slots -/

theorem exec_debug_disabled {s : State} {i : Instr} (hoff : s.params.enableDebug = false) (hengine : i.engine = .debug)
    (hi : i.wellFormed = true) : exec i s = .next s := by
  obtain ⟨hkeys, hcells, hbases⟩ := Instr.wellFormed_iff.1 hi
  cases i
  case compare l k => exact (checked_run hcells (by simp) s _).trans (by simp [hoff])
  case vcompare l ks =>
    have hlen : ks.length = vlen := by simpa [Instr.keysFit] using hkeys
    exact (if_pos hlen).trans ((checked_run (by simp) hbases s _).trans (by simp [hoff]))
  all_goals cases hengine

theorem runSlots_cons_of_next {x : Instr × Nat} {s t : State} (h : exec x.1 (s.atSlot x.2) = .next t)
    (rest : List (Instr × Nat)) : runSlots (x :: rest) s = runSlots rest t := by
  rw [runSlots, h]

theorem runSlots_append_of_next {slots : List (Instr × Nat)} {s t : State} (h : runSlots slots s = .next t)
    (rest : List (Instr × Nat)) : runSlots (slots ++ rest) s = runSlots rest t := by
  induction slots generalizing s with
  | nil => cases h; rfl
  | cons x slots ih =>
    obtain ⟨u, hu, hslots⟩ := runSlots_cons_next h
    rw [List.cons_append, runSlots_cons_of_next hu, ih hslots]

theorem runSlots_append_of_fault {slots : List (Instr × Nat)} {s : State} {r : Fault} (h : runSlots slots s = .fault r)
    (rest : List (Instr × Nat)) : runSlots (slots ++ rest) s = .fault r := by
  induction slots generalizing s with
  | nil => cases h
  | cons x slots ih =>
    rw [runSlots] at h
    rw [List.cons_append, runSlots]
    cases hx : exec x.1 (s.atSlot x.2) with
    | next t => rw [hx] at h; exact ih h
    | fault r' => rw [hx] at h; exact h
    | refused r' => rw [hx] at h; cases h

/-- Skipped slots leave nothing behind but the place of the last of them, which the commit forgets. -/
theorem runSlots_skipped {slots : List (Instr × Nat)} {s : State}
    (h : ∀ x ∈ slots, ∀ n, exec x.1 (s.atSlot n) = .next (s.atSlot n)) :
    ∃ n, runSlots slots s = .next (s.atSlot n) := by
  have hfrom (n : Nat) : ∃ m, runSlots slots (s.atSlot n) = .next (s.atSlot m) := by
    induction slots generalizing n with
    | nil => exact ⟨n, rfl⟩
    | cons x slots ih =>
      obtain ⟨hx, hslots⟩ := List.forall_mem_cons.1 h
      rw [runSlots_cons_of_next (s := s.atSlot n) (hx x.2)]
      exact ih hslots x.2
  exact hfrom s.pending.slot

/-- Settles O33: the Debug slots come last, and each leaves the state as it is. -/
theorem disabledDebugSlotsAreSkipped : Obligations.DisabledDebugSlotsAreSkipped := by
  refine ⟨fun s i hoff hengine hi => exec_debug_disabled hoff hengine hi, fun s b hoff hb => ?_⟩
  have hschedule : schedule b = schedule { b with debug := none } ++ engineSlots b .debug := by
    simp [schedule, Engine.order, engineSlots, Bundle.slots, Bundle.entry]
  by_cases hall : AllAnswer { b with debug := none } s
  case neg =>
    obtain ⟨r, hr⟩ := runSlots_schedule_fault hall
    rw [runBundle, runBundle, hschedule, runSlots_append_of_fault hr, hr]
  case pos =>
    have hrun := runSlots_schedule hall
    have hskip (x : Instr × Nat) (hx : x ∈ engineSlots b .debug) {t : State} (ht : t.params = s.params) :
        exec x.1 t = .next t := by
      obtain ⟨hengine, hi⟩ := (Bundle.wellFormed_iff.1 hb .debug).2 _ (List.fst_mem_of_mem_zipIdx hx)
      exact exec_debug_disabled (ht ▸ hoff) hengine hi
    obtain ⟨n, hn⟩ := runSlots_skipped (slots := engineSlots b .debug)
      (s := { s with pending := bundleEffect { b with debug := none } s }) fun x hx n => hskip x hx rfl
    rw [runBundle, runBundle, hschedule, runSlots_append_of_next hrun, hrun, hn]
    rfl

/-! ### Two slots of one bundle -/

/-- A bundle of two slots that both answer: it completes with the effects of the first before those of the second. -/
theorem step_two_slots {b : Bundle} {s t u : State} {i j : Instr} (hr : Ready s) (hf : Fetches s b)
    (hslots : b.allSlots = [i, j]) (hi : exec i s.beginCycle = .next t) (hj : exec j s.beginCycle = .next u) :
    ∃ c, step s = .next c ∧
      (∀ a, IsCell a → c.x a = (lastWrite (t.pending.scratch ++ u.pending.scratch) a.toNat).getD (s.x a)) ∧
      (Mem.wf s.mem → ∀ m, c.memAt m = (lastWrite (t.pending.mem ++ u.pending.mem) m).getD (s.memAt m)) := by
  have hall : AllAnswer b s := by simp [AllAnswer, hslots, hi, hj]
  refine ⟨_, by rw [step_bundle hr hf, runBundle_committed hall], fun a ha => ?cells, fun hm m => ?words⟩
  case cells =>
    have hwrites : bundleScratchWrites b s = t.pending.scratch ++ u.pending.scratch := by
      simp [bundleScratchWrites, hslots, slotEffect_of_next hi, slotEffect_of_next hj]
    obtain ⟨n, rfl⟩ := Int.eq_ofNat_of_zero_le ha.1
    rw [← hwrites]
    exact committed_x b s (by omega)
  case words =>
    have hwrites : bundleMemWrites b s = t.pending.mem ++ u.pending.mem := by
      simp [bundleMemWrites, hslots, slotEffect_of_next hi, slotEffect_of_next hj]
    rw [← hwrites]
    exact committed_memAt b s hm m

theorem addLane_zero (w : Word) : addLane w 0 = some w := by simp [addLane, Word.ofNatMod]

/-- Settles O41: both slots read the start of the cycle; cells that are neither of the two keep their words by O40. -/
theorem swapWithoutTemporary : Obligations.SwapWithoutTemporary := by
  intro s p q z hr hp hq hz hne hzero hf
  have hcopy {d a : Int} (hd : IsCell d) (ha : IsCell a) :
      exec (.aluAdd d a z) s.beginCycle = .next (s.beginCycle.pend d (s.x a)) :=
    aluOp_run hd ha hz (f := addLane) (by rw [s.beginCycle_x, s.beginCycle_x, hzero, addLane_zero])
  obtain ⟨t, ht, hcells, -⟩ := step_two_slots hr hf rfl (hcopy hp hq) (hcopy hq hp)
  have hpq : p.toNat ≠ q.toNat := by omega
  refine ⟨t, ht, ?first, ?second, fun a hap haq => ?others⟩
  case first => simp [hcells p hp, lastWrite, hpq.symm]
  case second => simp [hcells q hq, lastWrite, hpq]
  case others =>
    refine (bundleFrame s t _ hr hf ht).1 a fun hmem => ?_
    rcases List.mem_pair.1 hmem with h | h
    · exact hap h
    · exact haq h

/-- Settles O42: the write of the Flow slot is the last to the cell. -/
theorem laterEngineWins : Obligations.LaterEngineWins := by
  intro s d a val imm hr hd ha hf
  obtain ⟨t, ht, hcells, -⟩ :=
    step_two_slots hr hf rfl (execConst_run hd val s.beginCycle) (execAddImm_run hd ha imm s.beginCycle)
  refine ⟨t, ht, ?_⟩
  have hlast : t.x d = Word.ofIntMod ((s.x a).toNat + imm) := by simp [hcells d hd, lastWrite]
  rw [hlast, ofIntMod_toNat]

/-- Settles O43: the load reads the memory of the start of the cycle, and the store's word lands at the commit. -/
theorem loadBesideStoreReadsOldWord : Obligations.LoadBesideStoreReadsOldWord := by
  intro s d a src hr hm hd ha hsrc hexists hf
  obtain ⟨t, ht, hcells, hwords⟩ :=
    step_two_slots hr hf rfl (loadOp_run (s := s.beginCycle) hd ha hexists)
      (execStore_run (s := s.beginCycle) ha hsrc hexists)
  refine ⟨t, ht, ?cell, ?word⟩
  case cell => simp [hcells d hd, lastWrite]
  case word => simp [hwords hm, lastWrite]

end Sys2Proof.Machine
end

section
/-! SUPPORT. The whole machine (60_exceptions.md R205 to R219): everything a step can lead to, as one case distinction,
from which each statement about every step follows, and the launch. -/

namespace Sys2Proof.Machine

/-! ### What a step can lead to -/

theorem step_ready {s : State} (hr : Ready s) : step s = runningStep s := by
  simp [step, machineStep, hr.noFault, hr.inRun, hr.running]

theorem step_idle {s : State} (hfault : s.fault = none) (hin : s.inRun = false) : step s = .next (hostTurn s) := by
  simp [step, machineStep, hfault, hin]

/-- The states a step of `s` can answer with, `s` having no fault. Those of a core that executes are the first three. -/
inductive Turn (s : State) : State → Prop
  | faults (r : Fault) (hr : Ready s) : Turn s (s.takeFault r)
  | ends (hr : Ready s) (hstop : s.params.endOfProgram = .stop) (hend : (s.params.program.length : Int) ≤ s.pc) :
      Turn s { s with pending := Pending.empty, runState := .stopped, inRun := false }
  | commits (b : Bundle) (hr : Ready s) (hf : Fetches s b) : Turn s (committed b s)
  | returns (hrs : s.runState ≠ .running) : Turn s { s with inRun := false }
  | waits : Turn s s
  | callsStopped (n : Nat) (hrs : s.runState = .stopped) : Turn s { s with runCalls := n }
  | enters (n : Nat) (hrs : s.runState ≠ .stopped) :
      Turn s { s with runState := .running, inRun := true, runCalls := n }

theorem length_le_of_fetch_eq_none {s : State} (hpc : 0 ≤ s.pc) (h : fetch s = none) :
    (s.params.program.length : Int) ≤ s.pc := by
  rw [fetch, if_neg (by omega), List.getElem?_eq_none_iff] at h
  omega

/-- Every step that answers is one of the turns. -/
theorem turn_of_step {s t : State} (h : step s = .next t) : s.fault = none ∧ Turn s t := by
  obtain ⟨hfault, hcases⟩ := step_cases h
  refine ⟨hfault, ?_⟩
  rcases hcases with ⟨-, hrs, rfl⟩ | ⟨hin, hrs, -, rfl⟩ | ⟨hin, hrs, hfetch, hpc, hstop, rfl⟩ |
    ⟨_, c, hin, hrs, -, -, rfl⟩ | ⟨lit, b, u, hin, hrs, hfetch, hdecode, -, -⟩ | ⟨_, _, r, hin, hrs, -, -, -, rfl⟩ |
    ⟨-, rfl⟩
  · exact .returns hrs
  · exact .faults _ ⟨hfault, hin, hrs⟩
  · exact .ends ⟨hfault, hin, hrs⟩ hstop (length_le_of_fetch_eq_none hpc hfetch)
  · exact .faults _ ⟨hfault, hin, hrs⟩
  · have hr : Ready s := ⟨hfault, hin, hrs⟩
    have hf : Fetches s b := ⟨lit, hfetch, hdecode⟩
    rcases step_bundle_cases hr hf h with rfl | ⟨r, rfl⟩
    · exact .commits b hr hf
    · exact .faults r hr
  · exact .faults r ⟨hfault, hin, hrs⟩
  · rcases hostTurn_cases s with hturn | ⟨n, -, hrs, hturn⟩ | ⟨n, -, hrs, hturn⟩
    · rw [hturn]; exact .waits
    · rw [hturn]; exact .callsStopped n hrs
    · rw [hturn]; exact .enters n hrs

/-! ### The invariant -/

/-- Settles O45: memory changes in a commit only, by writes to existing addresses; no turn leaves anything pending; and
the host is inside `run()` after a commit only if the core still runs. -/
theorem stepKeepsInv : Obligations.StepKeepsInv := by
  intro s t hinv h
  obtain ⟨hfault, hturn⟩ := turn_of_step h
  obtain ⟨hwf, hwithin, hpending, hrun⟩ := hinv
  cases hturn with
  | faults r hr => exact ⟨hwf, hwithin, rfl, fun h => by cases h⟩
  | ends hr hstop hend => exact ⟨hwf, hwithin, rfl, fun h => by cases h⟩
  | commits b hr hf =>
    refine ⟨applyMem_wf hwf _, applyMem_within hwithin _ fun w hw => ?_, rfl, fun hin => ⟨?_, hfault⟩⟩
    · exact (bundleMemWrites_mem (bundleEffect_mem b s ▸ hw)).2
    · exact of_decide_eq_true hin
  | returns hrs => exact ⟨hwf, hwithin, hpending, fun h => by cases h⟩
  | waits => exact ⟨hwf, hwithin, hpending, hrun⟩
  | callsStopped n hrs => exact ⟨hwf, hwithin, hpending, hrun⟩
  | enters n hrs => exact ⟨hwf, hwithin, hpending, fun _ => ⟨rfl, hfault⟩⟩

/-- Settles O46: reset is a launch too, of the empty image. -/
theorem resetAndLaunchMeetInv : Obligations.ResetAndLaunchMeetInv := by
  have hlaunch (p : Params) (image : Mem) (calls : Nat) (hwf : Mem.wf image) (hwithin : Mem.within image p.memSize) :
      Inv (State.ofLaunch p image calls) := ⟨hwf, hwithin, rfl, fun h => by cases h⟩
  refine ⟨hlaunch _ _ _ reset_mem_wf (by simp [Mem.within]), fun p image calls s h => ?_⟩
  obtain ⟨-, ⟨hwf, hwithin⟩, rfl⟩ := launch_eq_ok_iff.1 h
  exact hlaunch p image calls hwf hwithin

/-! ### Every step -/

/-- Settles O47: no turn touches the parameters, and the fetch reads nothing but them and the `pc`. -/
theorem noStepChangesTheProgram : Obligations.NoStepChangesTheProgram := by
  intro s t h
  have hparams : t.params = s.params := by cases (turn_of_step h).2 <;> rfl
  exact ⟨hparams, fun hpc => by rw [fetch, fetch, hparams, hpc]⟩

theorem runBundle_answers (b : Bundle) (s : State) : ∃ t, runBundle b s = .next t := by
  by_cases hall : AllAnswer b s
  · exact ⟨_, runBundle_committed hall⟩
  · obtain ⟨r, hr⟩ := runBundle_fault hall
    exact ⟨_, hr⟩

theorem runningStep_answers (s : State) : ∃ t, runningStep s = .next t := by
  unfold runningStep
  split
  case h_1 => split <;> exact ⟨_, rfl⟩
  case h_2 lit _ =>
    split
    case h_1 => exact ⟨_, rfl⟩
    case h_2 b _ => exact runBundle_answers b s

/-- Settles O48: no slot is refused, so a bundle always ends in a commit or in a fault that is recorded. -/
theorem onlyARecordedFaultEndsTheSteps : Obligations.OnlyARecordedFaultEndsTheSteps := by
  refine fun s => ⟨fun hfault => ?answers, fun r hfault => by rw [step, machineStep, hfault]⟩
  cases hin : s.inRun with
  | false => exact ⟨_, step_idle hfault hin⟩
  | true =>
    cases hrs : s.runState with
    | running => rw [step_ready ⟨hfault, hin, hrs⟩]; exact runningStep_answers s
    | paused | stopped => exact ⟨{ s with inRun := false }, by simp [step, machineStep, hfault, hin, hrs]⟩

/-- Settles O49: only a commit counts or traces, and its one Flow slot writes one word at most. -/
theorem countersOnlyGrow : Obligations.CountersOnlyGrow := by
  intro s t h
  have hkept : ∃ ws, s.traceBuf = s.traceBuf ++ ws ∧ ws.length ≤ 1 := ⟨[], by simp⟩
  cases (turn_of_step h).2 with
  | commits b hr hf =>
    refine ⟨?_, ?_, bundleTrace b s, committed_traceBuf b s, bundleTrace_length hf.wellFormed s⟩ <;>
      rw [committed_cycle] <;> split <;> omega
  | _ => exact ⟨le_rfl, Nat.le_succ _, hkept⟩

/-- A Flow slot that stops the core is `halt` or `pause`. -/
theorem slotEffect_stop {i : Instr} {s : State} (h : (slotEffect i s).nextRs ≠ .running) :
    (slotEffect i s).nextRs = .stopped ∧ i = .halt ∨ (slotEffect i s).nextRs = .paused ∧ i = .pause := by
  cases i
  case halt => exact .inl ⟨rfl, rfl⟩
  case pause => exact .inr ⟨rfl, rfl⟩
  all_goals exact absurd (slotEffect_nextRs rfl s) h

/-- Settles O50: of the turns of a running core, the end of the program and a commit can leave `RUNNING`, the latter by
its Flow slot. -/
theorem onlyHaltPauseOrEndLeaveRunning : Obligations.OnlyHaltPauseOrEndLeaveRunning := by
  intro s t hrs h hleft
  cases (turn_of_step h).2 with
  | ends hr hstop hend => exact .inr ⟨rfl, hstop, hend⟩
  | commits b hr hf =>
    obtain ⟨-, hnext⟩ := bundleEffect_flow hf.wellFormed s
    rw [committed_runState, hnext] at hleft ⊢
    rcases flow_slots hf.wellFormed with hflow | ⟨i, hflow⟩
    · simp [hflow] at hleft
    · simp only [hflow, List.head?_cons, Option.map_some, Option.getD_some] at hleft ⊢
      refine .inl ⟨b, hf, ?_⟩
      rcases slotEffect_stop hleft with ⟨hstopped, rfl⟩ | ⟨hpaused, rfl⟩
      · exact .inl ⟨hstopped, by simp [hflow]⟩
      · exact .inr ⟨hpaused, by simp [hflow]⟩
  | faults | waits | callsStopped => exact absurd hrs hleft
  | returns hne => exact absurd hrs hne
  | enters => exact absurd rfl hleft

/-- Settles O51: a stopped core does not execute, and the host's turns leave it alone. -/
theorem stoppedCoreStaysStopped : Obligations.StoppedCoreStaysStopped := by
  intro s t hrs h
  have hnot_ready (hr : Ready s) : False := by
    have := hr.running
    rw [hrs] at this
    cases this
  cases (turn_of_step h).2 with
  | faults _ hr | ends hr | commits _ hr => exact (hnot_ready hr).elim
  | enters n hne => exact absurd hrs hne
  | returns | waits | callsStopped => exact ⟨hrs, rfl, rfl, rfl, rfl, rfl, rfl⟩

/-! ### The fetch and the host -/

/-- Settles O52: in both cases the fetch finds no literal. -/
theorem fetchOutsideTheProgram : Obligations.FetchOutsideTheProgram := by
  intro s hr
  refine ⟨fun hneg => ?negative, fun hend => ?beyond⟩
  case negative => rw [step_ready hr]; simp [runningStep, fetch, hneg]
  case beyond =>
    have hnone : fetch s = none := by
      rw [fetch, if_neg (by omega), List.getElem?_eq_none_iff]
      omega
    have hpc : ¬ s.pc < 0 := by omega
    rw [step_ready hr, runningStep, hnone]
    simp only [hpc, if_false, pastEnd]
    exact ⟨fun hend => by rw [hend], fun hend => by rw [hend]⟩

/-- Settles O53: the check of the bundle's form comes before its evaluation. -/
theorem illFormedBundleIsNeverExecuted : Obligations.IllFormedBundleIsNeverExecuted := by
  intro s lit c hr hfetch hdecode
  rw [step_ready hr, runningStep]
  simp only [hfetch, hdecode]

/-- Settles O54: the step is the host's turn. -/
theorem runResumesAPausedCore : Obligations.RunResumesAPausedCore := by
  intro s hfault hin
  rw [step_idle hfault hin]
  refine ⟨fun hcalls => ?none, fun n hcalls hrs => ?call, fun n hcalls hrs => ?stopped⟩
  case none => rw [hostTurn, hcalls]
  case call =>
    cases h : s.runState with
    | stopped => exact absurd h hrs
    | running | paused => simp [hostTurn, enterRun, hcalls, h]
  case stopped => simp [hostTurn, enterRun, hcalls, hrs]

/-! ### The launch -/

theorem firstIllFormed_eq_none {n : Nat} {ps : List Py} (h : ∀ lit ∈ ps, ∃ b, decodeBundle lit = .ok b) :
    firstIllFormed n ps = none := by
  induction ps generalizing n with
  | nil => rfl
  | cons p ps ih =>
    obtain ⟨⟨b, hb⟩, hps⟩ := List.forall_mem_cons.1 h
    rw [firstIllFormed, hb]
    exact ih hps

/-- The bundle named is ill-formed, and the check named is the one it fails. -/
theorem firstIllFormed_eq_some {n : Nat} {ps : List Py} (h : ∃ lit ∈ ps, ∃ c, decodeBundle lit = .error c) :
    ∃ (k : Nat) (lit : Py) (c : Check),
      ps[k]? = some lit ∧ decodeBundle lit = .error c ∧ firstIllFormed n ps = some (n + k, c) := by
  induction ps generalizing n with
  | nil => simp at h
  | cons p ps ih =>
    cases hp : decodeBundle p with
    | error c => exact ⟨0, p, c, rfl, hp, by rw [firstIllFormed, hp]; rfl⟩
    | ok b =>
      obtain ⟨lit, hlit, c, hc⟩ := h
      have hrest : ∃ lit ∈ ps, ∃ c, decodeBundle lit = .error c := by
        rcases List.mem_cons.1 hlit with rfl | hlit
        · rw [hp] at hc; cases hc
        · exact ⟨lit, hlit, c, hc⟩
      obtain ⟨k, lit, c, hk, hc, hfirst⟩ := ih (n := n + 1) hrest
      exact ⟨k + 1, lit, c, hk, hc, by rw [firstIllFormed, hp, ← Nat.add_assoc, Nat.add_right_comm]; exact hfirst⟩

/-- Settles O56: the launch looks for the lowest ill-formed bundle before it looks at the image. -/
theorem launchChecksTheProgram : Obligations.LaunchChecksTheProgram := by
  intro p image calls hwf hwithin
  refine ⟨fun hall => ?accepted, fun hsome => ?refused⟩
  case accepted =>
    have hlaunch : launch p image calls = .ok (State.ofLaunch p image calls) :=
      launch_eq_ok_iff.2 ⟨firstIllFormed_eq_none hall, ⟨hwf, hwithin⟩, rfl⟩
    exact ⟨_, hlaunch, rfl, rfl, rfl, rfl, rfl, rfl, rfl, rfl⟩
  case refused =>
    obtain ⟨n, lit, c, hn, hlit, hfirst⟩ := firstIllFormed_eq_some (n := 0) hsome
    rw [Nat.zero_add] at hfirst
    exact ⟨n, lit, c, hn, hlit, by rw [launch, hfirst]⟩

end Sys2Proof.Machine
end
